-- ==== Sys2Proof/Word.lean ====
section
/-! DEFINITION. The word types of IPHC (00_scope.md R7, R9; 20_memory.md R48). -/

namespace Sys2Proof

/-- One buffer byte (R9). -/
abbrev Byte := BitVec 8

/-- A 16-bit checksum value (40_checksum.md R87). -/
abbrev Half := BitVec 16

/-- A register, a command word, or the data of a bus access: 32 bits (R6, `REG_WIDTH`). -/
abbrev Word := BitVec 32

/-- A host byte address `A[16:0]` (R6, `HOST_ADDR_WIDTH`). -/
abbrev HostAddr := BitVec 17

/-- The byte strobe of a host write: bit `j` enables data bits `8j+7 : 8j` (R48). -/
abbrev Strobe := BitVec 4

end Sys2Proof
end

