-- ==== Sys2Proof/Syntax.lean ====
section
/-! DEFINITION. The commands of IPHC-CMD version 1, one constructor for each row of
spec/opcode_table.json (30_encoding.md R63, R65). -/

namespace Sys2Proof

/-- A command. The three legal commands carry no operand in their word (R66); an illegal command
keeps its word, so that no bit of it is lost. -/
inductive Instr where
  /-- One's-complement checksum of a buffer region (40_checksum.md R92). -/
  | csum
  /-- Pack the field registers into a header with its checksum (41_codec.md R104). -/
  | encode
  /-- Unpack and check a received header (41_codec.md R109). -/
  | decode
  /-- Any word that selects no command (60_exceptions.md R117). -/
  | illegal (word : Word)
  deriving DecidableEq, Repr

end Sys2Proof
end

