-- ==== Sys2Proof/WellFormed.lean ====
section
/-! DEFINITION. Which command terms stand for a command word: an `illegal` term must carry a word
that 30_encoding.md R64 calls illegal. -/

namespace Sys2Proof

/-- `legal(w)` of R64: bits 31:4 are 0 and bits 3:0 are 1, 2 or 3. -/
def legalWord (w : Word) : Bool :=
  w.extractLsb' 4 28 == 0#28 &&
    (w.extractLsb' 0 4 == 1#4 || w.extractLsb' 0 4 == 2#4 || w.extractLsb' 0 4 == 3#4)

/-- The one check of a command term. -/
def Instr.wellFormed : Instr → Bool
  | .csum => true
  | .encode => true
  | .decode => true
  | .illegal w => !legalWord w

end Sys2Proof
end

