-- ==== Sys2Proof/Decode.lean ====
section
/-! DEFINITION. The command decoder and the encoder (30_encoding.md R62 to R65).

A command is one 32-bit word (R62). It travels as the four byte lanes of a bus write, lane `j`
holding bits `8j+7 : 8j` (20_memory.md R48); `decode` reads such a list of lanes, lane 0 first. -/

namespace Sys2Proof

/-- The reserved field RZ, bits 31:4 (R62). -/
def rzField (w : Word) : BitVec 28 := w.extractLsb' 4 28

/-- The operation field OP, bits 3:0 (R62). -/
def opField (w : Word) : BitVec 4 := w.extractLsb' 0 4

/-- The command a word selects; total over all words (R63, R64, R65). -/
def decodeWord (w : Word) : Instr :=
  if rzField w = 0#28 then
    if opField w = 1#4 then .csum
    else if opField w = 2#4 then .encode
    else if opField w = 3#4 then .decode
    else .illegal w
  else .illegal w

/-- Why a list of bytes is no command word. -/
inductive DecodeError where
  /-- A command has one length, four bytes (R62); this list has another. Safe: nothing is run. -/
  | wrongLength (bytes : Nat)
  deriving DecidableEq, Repr

/-- The word whose byte lanes are given, lane 0 first. -/
def wordOfLanes (b0 b1 b2 b3 : Byte) : Word := b3 ++ b2 ++ b1 ++ b0

/-- The command in a list of byte lanes, or the reason it is none. -/
def decode : List Byte → Except DecodeError Instr
  | [b0, b1, b2, b3] => .ok (decodeWord (wordOfLanes b0 b1 b2 b3))
  | bs => .error (.wrongLength bs.length)

/-- A word from its two fields (format CMD32 of R62). -/
def cmd32 (rz : BitVec 28) (op : BitVec 4) : Word := rz ++ op

/-- The command word of a command (R63); an illegal command is its own word. -/
def encodeWord : Instr → Word
  | .csum => cmd32 0#28 1#4
  | .encode => cmd32 0#28 2#4
  | .decode => cmd32 0#28 3#4
  | .illegal w => w

/-- The byte lanes of a word, lane 0 first. -/
def lanesOfWord (w : Word) : List Byte :=
  [w.extractLsb' 0 8, w.extractLsb' 8 8, w.extractLsb' 16 8, w.extractLsb' 24 8]

/-- The byte lanes of a command word. -/
def encode (i : Instr) : List Byte := lanesOfWord (encodeWord i)

/-- The low `n` byte lanes of a number, lane 0 first. -/
def lanesOfNat : Nat → Nat → List Byte
  | 0, _ => []
  | n + 1, w => BitVec.ofNat 8 w :: lanesOfNat n (w / 256)

/-- What the decoder reads from a command of `nbits` bits `w`, with zeros above them up to the one
command length. -/
def decodeTableWord (nbits w : Nat) : Option Instr :=
  match decode (lanesOfNat (max 4 ((nbits + 7) / 8)) (w % 2 ^ nbits)) with
  | .ok i => some i
  | .error _ => none

end Sys2Proof
end

