-- ==== Sys2Proof/Config.lean ====
section
/-! DEFINITION. The parameters of 00_scope.md R6 and the free value of the model. -/

namespace Sys2Proof

/-- `BUF_BYTES` as its eleven legal values: `k` stands for `2 ^ (6 + k)` bytes, 64 to 65536 (R6). -/
abbrev BufSize := Fin 11

/-- `BUFLOG2`, 6 to 16 (10_state.md R18). -/
def BufSize.log2 (k : BufSize) : Nat := 6 + k.val

/-- `BUF_BYTES` (R6). -/
def BufSize.bytes (k : BufSize) : Nat := 2 ^ k.log2

/-- The reference value of the parameter, `BUF_BYTES = 65536` (R6). -/
def Config.referenceBufSize : BufSize := 10

/-- FREE VALUE (U1 of 93_implementation_defined.md): the contents of the byte at an offset that
nothing has written since reset, after a number of resets. No body: nothing can be proved of its
value. -/
opaque Config.unwrittenByte : Nat → Nat → Byte

end Sys2Proof
end

