-- ==== Sys2Proof/Machine/State.lean ====
section
/-! DEFINITION. The state of IPHC (10_state.md R14), the host's schedule, and reset
(70_reset_and_hazards.md R136, R137). -/

namespace Sys2Proof.Machine

/-- The packet buffer's written bytes: offset and value, offsets strictly rising. An offset that is
not listed is unwritten since reset and holds no value (10_state.md R32, R137). -/
abbrev Memory := List Host.Cell

/-- The canonical form: offsets strictly rising. -/
def Memory.wf : Memory → Bool
  | [] => true
  | [_] => true
  | (a, _) :: (b, y) :: m => decide (a < b) && Memory.wf ((b, y) :: m)

/-- One coming step of the outside world, or a turn it leaves to the engine (10_state.md R13). -/
inductive Event where
  /-- The host reads address `a` (20_memory.md R49). -/
  | read (a : HostAddr)
  /-- The host writes (20_memory.md R48). -/
  | write (a : HostAddr) (data : Word) (strb : Strobe)
  /-- The reset event RST (70_reset_and_hazards.md R136). -/
  | reset
  /-- The engine's turn (10_state.md R13). -/
  | engine
  deriving DecidableEq, Repr

/-- The whole state of the block (R14), the size parameter (R6), and the model's three own fields. -/
@[ext]
structure State where
  /-- `BUF_BYTES` (R6, R18): a parameter, changed by no step. -/
  bufSize : BufSize
  /-- CTRL (R19). -/
  ctrl : Word
  /-- STATUS (R21). -/
  status : Word
  /-- BASE (R27). -/
  base : Word
  /-- LEN (R28). -/
  len : Word
  /-- RESULT (R30). -/
  result : Word
  /-- PAYLOAD (R31). -/
  payload : Word
  /-- HDR0: VER, HLEN, B1, TLEN (R29). -/
  hdr0 : Word
  /-- HDR1: W1 (R29). -/
  hdr1 : Word
  /-- HDR2: TTL, PROTO, CHECKSUM (R29). -/
  hdr2 : Word
  /-- HDR3: SRC (R29). -/
  hdr3 : Word
  /-- HDR4: DST (R29). -/
  hdr4 : Word
  /-- PEND (R33): the accepted command word; `none` is "no command pending" (R136). -/
  pend : Option Word
  /-- The packet buffer (R32). -/
  buf : Memory
  /-- MODEL's own: the coming host steps and engine turns, next first. -/
  events : List Event
  /-- MODEL's own: the data of the host's latest read. -/
  readData : Word
  /-- MODEL's own: counts the reset events, each of which leaves the unwritten bytes with new free
  contents (R137, U1, U2). -/
  resets : Nat
  deriving DecidableEq, Repr

/-- Why the machine stops. -/
inductive Fault where
  /-- Raised by an engine step that reads a buffer byte unwritten since reset: the execution has
  left the specified behaviour (93_implementation_defined.md U1; 40_checksum.md R93; 41_codec.md
  R103). Safe: the hardware goes on with an unspecified value. -/
  | unwrittenByte (offset : Nat)
  deriving DecidableEq, Repr

/-- Why a command has no meaning in the model. -/
inductive Refusal where
  /-- Raised by a dispatch arm whose command is not modelled yet; no arm does. Safe. -/
  | notModelled (mnemonic : String)
  deriving DecidableEq, Repr

/-- The machine right after reset (R136, R137), with the reference buffer size (R6). -/
def State.reset : State where
  bufSize := Config.referenceBufSize
  ctrl := 0x00000002#32
  status := 0#32
  base := 0#32
  len := 0#32
  result := 0#32
  payload := 0#32
  hdr0 := 0#32
  hdr1 := 0#32
  hdr2 := 0#32
  hdr3 := 0#32
  hdr4 := 0#32
  pend := none
  buf := []
  events := []
  readData := 0#32
  resets := 0

/-- The outcome of a step. -/
abbrev Result := Host.Outcome State Fault Refusal

end Sys2Proof.Machine
end

