-- ==== Sys2Proof/Machine/Flags.lean ====
section
/-! DEFINITION. The fields of STATUS and CTRL (10_state.md R19, R21), the interrupt output (R35), and
the check flags DECODE computes (41_codec.md R110, R112). -/

namespace Sys2Proof.Machine

/-- Write one bit of a register and leave the others (00_scope.md R8). -/
def setBit (w : Word) (i : Nat) (b : Bool) : Word :=
  if b then w ||| BitVec.twoPow 32 i else w &&& ~~~BitVec.twoPow 32 i

/-- Write STATUS.ERR, bits 7:4, and leave the other bits (R8, R21). -/
def setErr (w : Word) (code : BitVec 4) : Word :=
  w.extractLsb' 8 24 ++ code ++ w.extractLsb' 0 4

/-- CTRL.IE (R19). -/
def State.ie (s : State) : Bool := s.ctrl.getLsbD 0

/-- CTRL.STRICT (R19). -/
def State.strict (s : State) : Bool := s.ctrl.getLsbD 1

/-- STATUS.BUSY (R21, R22). -/
def State.busyFlag (s : State) : Bool := s.status.getLsbD 0

/-- STATUS.DONE (R21, R23). -/
def State.doneFlag (s : State) : Bool := s.status.getLsbD 1

/-- STATUS.ERR (R21, R24). -/
def State.errField (s : State) : BitVec 4 := s.status.extractLsb' 4 4

/-- STATUS.CSUM_BAD (R21, R25). -/
def State.csumBadFlag (s : State) : Bool := s.status.getLsbD 8

/-- STATUS.VER_BAD (R21, R25). -/
def State.verBadFlag (s : State) : Bool := s.status.getLsbD 9

/-- STATUS.TLEN_MISMATCH (R21, R25). -/
def State.tlenMismatchFlag (s : State) : Bool := s.status.getLsbD 10

/-- STATUS.ACCEPT (R21, R25). -/
def State.acceptFlag (s : State) : Bool := s.status.getLsbD 11

/-- STATUS.WBUSY (R21, R26). -/
def State.wbusyFlag (s : State) : Bool := s.status.getLsbD 12

/-- The interrupt output `IRQ = CTRL.IE & STATUS.DONE` (R35, 60_exceptions.md R124). -/
def State.irq (s : State) : Bool := s.ie && s.doneFlag

/-- `S.FLAG <- b` for the flag at bit `i` of STATUS. -/
def writeFlag (i : Nat) (b : Bool) (s : State) : State :=
  { s with status := setBit s.status i b }

/-- `S.ERR <- code`. -/
def writeErr (code : BitVec 4) (s : State) : State :=
  { s with status := setErr s.status code }

/-- `S.CSUM_BAD`: the stored checksum differs from the computed one (41_codec.md R100, R110). -/
def csumBad (computed stored : Half) : Bool := decide (stored ≠ computed)

/-- `S.VER_BAD`: the version nibble is not 4 (R110). -/
def verBad (version : BitVec 4) : Bool := decide (version ≠ 4#4)

/-- `S.TLEN_MISMATCH`: total length differs from the received length (R110). -/
def tlenMismatch (tlen received : Half) : Bool := decide (tlen ≠ received)

/-- `S.ACCEPT` from CTRL.STRICT and the three check flags (R112). -/
def acceptGate (strict csumBad verBad tlenMismatch : Bool) : Bool :=
  !strict || !(csumBad || verBad || tlenMismatch)

end Sys2Proof.Machine
end

