-- ==== Sys2Proof/Machine/Operands.lean ====
section
/-! DEFINITION. The operands a command reads from registers (30_encoding.md R66, R67), the host
address map (10_state.md R15), byte strobes (R39), and byte order (20_memory.md R43, R44). -/

namespace Sys2Proof.Machine

/-- `BUF_BYTES` of this machine (00_scope.md R6). -/
def State.bufBytes (s : State) : Nat := s.bufSize.bytes

/-- BASE[15:0], the offset of a command's region (R27, R67). -/
def State.baseOff (s : State) : Nat := (s.base.extractLsb' 0 16).toNat

/-- LEN[15:0] as a 16-bit value (R28). -/
def State.lenField (s : State) : Half := s.len.extractLsb' 0 16

/-- LEN[15:0], a length in bytes (R28, R67). -/
def State.lenBytes (s : State) : Nat := s.lenField.toNat

/-- HDR0.HLEN (R29). -/
def State.hlenField (s : State) : BitVec 4 := s.hdr0.extractLsb' 24 4

/-- HDR0.B1 (R29). -/
def State.b1Field (s : State) : Byte := s.hdr0.extractLsb' 16 8

/-- HDR0.TLEN (R29). -/
def State.tlenField (s : State) : Half := s.hdr0.extractLsb' 0 16

/-- HDR2.TTL (R29). -/
def State.ttlField (s : State) : Byte := s.hdr2.extractLsb' 24 8

/-- HDR2.PROTO (R29). -/
def State.protoField (s : State) : Byte := s.hdr2.extractLsb' 16 8

/-- `4 * HLEN`, the header's bytes for ENCODE (R67). -/
def State.headerBytes (s : State) : Nat := 4 * s.hlenField.toNat

/-- `R[HDR0].VER <- v` (00_scope.md R8). -/
def setVer (w : Word) (v : BitVec 4) : Word := v ++ w.extractLsb' 0 28

/-- `R[HDR2].CHECKSUM <- c` (R8). -/
def setChecksumField (w : Word) (c : Half) : Word := w.extractLsb' 16 16 ++ c

/-- Two bytes as a big-endian number, the first the high byte (40_checksum.md R87). -/
def beHalf (hi lo : Byte) : Half := hi ++ lo

/-- The high byte of a 16-bit number. -/
def hiByte (h : Half) : Byte := h.extractLsb' 8 8

/-- The low byte of a 16-bit number. -/
def loByte (h : Half) : Byte := h.extractLsb' 0 8

/-- Four bytes as a big-endian word, the first the most significant (00_scope.md R9). -/
def beWord (b0 b1 b2 b3 : Byte) : Word := b0 ++ b1 ++ b2 ++ b3

/-- A word's bytes, most significant first (R9). -/
def bytesOfWord (w : Word) : List Byte :=
  [w.extractLsb' 24 8, w.extractLsb' 16 8, w.extractLsb' 8 8, w.extractLsb' 0 8]

/-- Header byte `k` of a byte sequence (30_encoding.md R70). Every use has `k` below the length; past
the end it is 0. -/
def byteAt (h : List Byte) (k : Nat) : Byte := h.getD k 0#8

/-- Header word `k`, bytes `4k .. 4k+3`, most significant first (R70). -/
def wordAt (h : List Byte) (k : Nat) : Word :=
  beWord (byteAt h (4 * k)) (byteAt h (4 * k + 1)) (byteAt h (4 * k + 2)) (byteAt h (4 * k + 3))

/-- HLEN of a received header: the low nibble of its first byte (R67, R73). -/
def hlenOf (first : Byte) : Nat := (first.extractLsb' 0 4).toNat

/-- The PAYLOAD register's value `{plen, 0x00, poff}` (10_state.md R31). -/
def payloadWord (plen poff : Nat) : Word :=
  BitVec.ofNat 16 plen ++ 0#8 ++ BitVec.ofNat 8 poff

/-- The named registers of the host address map (R15). -/
inductive Reg where
  | id | cfg | ctrl | status | cmd | base | len | result | payload
  | hdr0 | hdr1 | hdr2 | hdr3 | hdr4
  deriving DecidableEq, Repr

/-- `A[16] = 1`: the buffer window (20_memory.md R42). -/
def inWindow (a : HostAddr) : Bool := a.getLsbD 16

/-- The word offset `{A[15:2], 0b00}`; `A[1:0]` is ignored (R42, R46). -/
def wordOffset (a : HostAddr) : Nat := 4 * (a.extractLsb' 2 14).toNat

/-- The register at an address outside the window; none where the map is reserved (R15, R54). -/
def regAt (a : HostAddr) : Option Reg :=
  match wordOffset a with
  | 0x00 => some .id
  | 0x04 => some .cfg
  | 0x08 => some .ctrl
  | 0x0C => some .status
  | 0x10 => some .cmd
  | 0x14 => some .base
  | 0x18 => some .len
  | 0x1C => some .result
  | 0x20 => some .payload
  | 0x24 => some .hdr0
  | 0x28 => some .hdr1
  | 0x2C => some .hdr2
  | 0x30 => some .hdr3
  | 0x34 => some .hdr4
  | _ => none

/-- Eight copies of a bit, one lane of the strobe mask. -/
def laneMask (b : Bool) : Byte := if b then 0xFF#8 else 0x00#8

/-- The mask `M` of a byte strobe (R48). -/
def strobeMask (strb : Strobe) : Word :=
  laneMask (strb.getLsbD 3) ++ laneMask (strb.getLsbD 2) ++
    laneMask (strb.getLsbD 1) ++ laneMask (strb.getLsbD 0)

/-- A register's new value under a strobed write, `writable` its mask `W` (R39). -/
def strobedWrite (old data writable : Word) (strb : Strobe) : Word :=
  (old &&& ~~~strobeMask strb) ||| (data &&& strobeMask strb &&& writable)

/-- The ID register's constant, "IPHC" in ASCII (R17). -/
def idValue : Word := 0x49504843#32

/-- The CFG register's constant, `log2(BUF_BYTES)` in bits 4:0 (R18). -/
def State.cfgValue (s : State) : Word := BitVec.ofNat 32 s.bufSize.log2

end Sys2Proof.Machine
end

