-- ==== Sys2Proof/Machine/Ops.lean ====
section
/-! DEFINITION. The shared operations: buffer reads and writes (00_scope.md R9, 20_memory.md R53), and
what this block has for taking an exception and returning from one: a command's error
(00_scope.md R10), its completion (60_exceptions.md R121), its acceptance (10_state.md R20) and the
host's acknowledgement (60_exceptions.md R122). -/

namespace Sys2Proof.Machine

/-- The value of a written byte; `none` for a byte unwritten since reset. -/
def Memory.byte : Memory → Nat → Option Byte
  | [], _ => none
  | (k, v) :: m, a => if k = a then some v else Memory.byte m a

/-- `Buf[a] <- v`, keeping the offsets rising. -/
def Memory.write : Memory → Nat → Byte → Memory
  | [], a, v => [(a, v)]
  | (k, x) :: m, a, v =>
    if a < k then (a, v) :: (k, x) :: m
    else if a = k then (a, v) :: m
    else (k, x) :: Memory.write m a v

/-- Write a byte sequence at consecutive offsets from `a` (`MemWrite` of R9). -/
def Memory.writeList : Memory → Nat → List Byte → Memory
  | m, _, [] => m
  | m, a, b :: bs => Memory.writeList (Memory.write m a b) (a + 1) bs

/-- The `n` bytes from offset `a` (`MemRead` of R9), or the first offset that is unwritten. -/
def Memory.readRange (m : Memory) : Nat → Nat → Except Nat (List Byte)
  | _, 0 => .ok []
  | a, n + 1 =>
    match m.byte a with
    | none => .error a
    | some b =>
      match Memory.readRange m (a + 1) n with
      | .error o => .error o
      | .ok bs => .ok (b :: bs)

/-- Read a region and go on with its bytes; an unwritten byte is a fault (U1). -/
def withRegion (s : State) (a n : Nat) (go : List Byte → Result) : Result :=
  match s.buf.readRange a n with
  | .error o => .fault (.unwrittenByte o)
  | .ok bs => go bs

/-- Read one byte and go on with it; an unwritten byte is a fault (U1). -/
def withByte (s : State) (a : Nat) (go : Byte → Result) : Result :=
  match s.buf.byte a with
  | none => .fault (.unwrittenByte a)
  | some b => go b

/-- The command error codes (60_exceptions.md R116). -/
inductive CmdError where
  | illegalCmd | bounds | short | hlenBad | overrun | tlenShort
  deriving DecidableEq, Repr

/-- The code an error leaves in STATUS.ERR (R116). -/
def CmdError.code : CmdError → BitVec 4
  | .illegalCmd => 1#4
  | .bounds => 2#4
  | .short => 3#4
  | .hlenBad => 4#4
  | .overrun => 5#4
  | .tlenShort => 6#4

/-- Completion, at the end of every engine step: BUSY falls, DONE rises, PEND means nothing
(R121). -/
def complete (s : State) : State :=
  { writeFlag 1 true (writeFlag 0 false s) with pend := none }

/-- `raise CmdError(e)`: the code in ERR, then completion; nothing else (00_scope.md R10). -/
def raiseError (e : CmdError) (s : State) : State := complete (writeErr e.code s)

/-- Completion without error: ERR is 0 (10_state.md R24; the "flags written" of R92, R104, R109). -/
def succeed (s : State) : State := complete (writeErr 0#4 s)

/-- Acceptance of a command word on the idle block (10_state.md R20). -/
def acceptCommand (w : Word) (s : State) : State :=
  { (writeFlag 11 false (writeFlag 10 false (writeFlag 9 false (writeFlag 8 false
      (writeErr 0#4 (writeFlag 1 false (writeFlag 0 true s))))))) with pend := some w }

/-- A write discarded while busy leaves only WBUSY set (R26). -/
def discardWrite (s : State) : State := writeFlag 12 true s

/-- A host write to STATUS: DONE and WBUSY are cleared by a 1 in a strobed lane, whatever BUSY is
(R21); clearing DONE is the host's acknowledgement of a completion (60_exceptions.md R122). -/
def writeStatus (data : Word) (strb : Strobe) (s : State) : State :=
  writeFlag 12 (s.wbusyFlag && !(data.getLsbD 12 && strb.getLsbD 1))
    (writeFlag 1 (s.doneFlag && !(data.getLsbD 1 && strb.getLsbD 0)) s)

/-- The reset event RST: every register at its reset value, no command pending, every buffer byte
unwritten with new free contents (70_reset_and_hazards.md R136, R137, R139). The size parameter and
the model's other own fields are not the block's registers and stay. -/
def blockReset (s : State) : State :=
  { State.reset with
    bufSize := s.bufSize, events := s.events, readData := s.readData, resets := s.resets + 1 }

end Sys2Proof.Machine
end

