-- ==== Sys2Proof/Machine/Bus.lean ====
section
/-! DEFINITION. The host's bus operations (20_memory.md R48, R49). -/

namespace Sys2Proof.Machine

/-- A buffer byte as the host reads it: absent bytes read 0 (R42), an unwritten byte is a free value
(93_implementation_defined.md U1). -/
def hostByte (s : State) (o : Nat) : Byte :=
  if o < s.bufBytes then
    match s.buf.byte o with
    | some b => b
    | none => Config.unwrittenByte s.resets o
  else 0#8

/-- The buffer word at offset `o`, the byte at the lowest offset in bits 31:24 (R43). -/
def windowWord (s : State) (o : Nat) : Word :=
  beWord (hostByte s o) (hostByte s (o + 1)) (hostByte s (o + 2)) (hostByte s (o + 3))

/-- The value a register reads as; CMD reads 0 (10_state.md R15 to R20). -/
def readReg (s : State) : Reg → Word
  | .id => idValue
  | .cfg => s.cfgValue
  | .ctrl => s.ctrl
  | .status => s.status
  | .cmd => 0#32
  | .base => s.base
  | .len => s.len
  | .result => s.result
  | .payload => s.payload
  | .hdr0 => s.hdr0
  | .hdr1 => s.hdr1
  | .hdr2 => s.hdr2
  | .hdr3 => s.hdr3
  | .hdr4 => s.hdr4

/-- `Read(A) -> data` (R49); reserved addresses read 0 (R54). -/
def busRead (s : State) (a : HostAddr) : Word :=
  if inWindow a then windowWord s (wordOffset a)
  else
    match regAt a with
    | some r => readReg s r
    | none => 0#32

/-- Write one buffer byte if its lane is strobed and the byte is present (R48). -/
def writeLane (bufBytes : Nat) (on : Bool) (o : Nat) (b : Byte) (m : Memory) : Memory :=
  if on && decide (o < bufBytes) then m.write o b else m

/-- A strobed write of the buffer word at offset `o`: lane `j` is `Buf[o+3-j]` (R43, R48). -/
def writeWindow (s : State) (o : Nat) (data : Word) (strb : Strobe) : State :=
  { s with
    buf :=
      writeLane s.bufBytes (strb.getLsbD 3) o (data.extractLsb' 24 8)
        (writeLane s.bufBytes (strb.getLsbD 2) (o + 1) (data.extractLsb' 16 8)
          (writeLane s.bufBytes (strb.getLsbD 1) (o + 2) (data.extractLsb' 8 8)
            (writeLane s.bufBytes (strb.getLsbD 0) (o + 3) (data.extractLsb' 0 8) s.buf))) }

/-- A write that is discarded while the engine is busy (10_state.md R26). -/
def unlessBusy (s : State) (performed : State) : State :=
  if s.busyFlag then discardWrite s else performed

/-- A write to a named register (R48); a read-only register ignores it (10_state.md R16). -/
def writeReg (s : State) (r : Reg) (data : Word) (strb : Strobe) : State :=
  match r with
  | .id => s
  | .cfg => s
  | .result => s
  | .payload => s
  | .status => writeStatus data strb s
  | .cmd => unlessBusy s (acceptCommand (data &&& strobeMask strb) s)
  | .ctrl => unlessBusy s { s with ctrl := strobedWrite s.ctrl data 0x00000003#32 strb }
  | .base => unlessBusy s { s with base := strobedWrite s.base data 0x0000FFFF#32 strb }
  | .len => unlessBusy s { s with len := strobedWrite s.len data 0x0000FFFF#32 strb }
  | .hdr0 => unlessBusy s { s with hdr0 := strobedWrite s.hdr0 data 0xFFFFFFFF#32 strb }
  | .hdr1 => unlessBusy s { s with hdr1 := strobedWrite s.hdr1 data 0xFFFFFFFF#32 strb }
  | .hdr2 => unlessBusy s { s with hdr2 := strobedWrite s.hdr2 data 0xFFFFFFFF#32 strb }
  | .hdr3 => unlessBusy s { s with hdr3 := strobedWrite s.hdr3 data 0xFFFFFFFF#32 strb }
  | .hdr4 => unlessBusy s { s with hdr4 := strobedWrite s.hdr4 data 0xFFFFFFFF#32 strb }

/-- `Write(A, data, strb)` (R48): a zero strobe has no effect at all (10_state.md R39, C8), and a
reserved address ignores the write (R54). -/
def busWrite (s : State) (a : HostAddr) (data : Word) (strb : Strobe) : State :=
  if strb = 0#4 then s
  else if inWindow a then unlessBusy s (writeWindow s (wordOffset a) data strb)
  else
    match regAt a with
    | some r => writeReg s r data strb
    | none => s

/-- The host's read step: the block does not change; the model keeps the data the host saw. -/
def hostRead (a : HostAddr) (s : State) : State := { s with readData := busRead s a }

end Sys2Proof.Machine
end

