-- ==== Sys2Proof/Machine/Checksum.lean ====
section
/-! DEFINITION. The checksum engine (40_checksum.md): the one's-complement sum and the CSUM command. -/

namespace Sys2Proof.Machine

/-- Add the big-endian 16-bit words of a byte sequence into the 32-bit accumulator; an odd trailing
byte is the high byte of a word padded with 0 (R87). -/
def sumWords : Word → List Byte → Word
  | acc, [] => acc
  | acc, [a] => acc + (beHalf a 0#8).setWidth 32
  | acc, a :: b :: rest => sumWords (acc + (beHalf a b).setWidth 32) rest

/-- One fold: the high 16 bits added into the low 16 bits (R87). -/
def foldOnce (acc : Word) : Word :=
  (acc.extractLsb' 16 16).setWidth 32 + (acc.extractLsb' 0 16).setWidth 32

/-- The fold loop of R87, run while the high half is not 0, at most `fuel` times. -/
def foldLoop : Nat → Word → Word
  | 0, acc => acc
  | fuel + 1, acc => if acc.extractLsb' 16 16 = 0#16 then acc else foldLoop fuel (foldOnce acc)

/-- `OnesSum(s)` (R87). Two folds end the loop for every 32-bit accumulator (R89). -/
def onesSum (bytes : List Byte) : Half := (foldLoop 2 (sumWords 0#32 bytes)).extractLsb' 0 16

/-- `Checksum(s) = ~OnesSum(s)` (R88). -/
def checksum (bytes : List Byte) : Half := ~~~onesSum bytes

/-- RESULT's value `{S, ~S}` (10_state.md R30). -/
def resultWord (sum : Half) : Word := sum ++ ~~~sum

/-- CSUM (R92). -/
def execCsum (s : State) : Result :=
  if s.baseOff + s.lenBytes > s.bufBytes then .next (raiseError .bounds s)
  else
    withRegion s s.baseOff s.lenBytes fun bytes =>
      .next (succeed { s with result := resultWord (onesSum bytes) })

end Sys2Proof.Machine
end

