-- ==== Sys2Proof/Machine/Codec.lean ====
section
/-! DEFINITION. The header codec (41_codec.md): the ENCODE and DECODE commands. -/

namespace Sys2Proof.Machine

/-- `PackFields()`: the 20 fixed header bytes, version 4, checksum bytes zero (R97, R101). -/
def packFields (s : State) : List Byte :=
  [4#4 ++ s.hlenField, s.b1Field, hiByte s.tlenField, loByte s.tlenField] ++
    bytesOfWord s.hdr1 ++
    [s.ttlField, s.protoField, 0#8, 0#8] ++
    bytesOfWord s.hdr3 ++ bytesOfWord s.hdr4

/-- Header bytes with the checksum field, bytes 10 and 11, replaced (30_encoding.md R70). -/
def putChecksum (h : List Byte) (c : Half) : List Byte := (h.set 10 (hiByte c)).set 11 (loByte c)

/-- `Image(h)`: the header with its checksum field zero (R99). -/
def headerImage (h : List Byte) : List Byte := putChecksum h 0#16

/-- What a successful ENCODE writes, from the header bytes `h` with the checksum field zero
(R102, R104). -/
def encodeWrites (s : State) (h : List Byte) : State :=
  let sum := onesSum h
  { s with
    buf := s.buf.writeList s.baseOff (putChecksum h (~~~sum))
    hdr0 := setVer s.hdr0 4#4
    hdr2 := setChecksumField s.hdr2 (~~~sum)
    result := resultWord sum
    payload := payloadWord (s.tlenField.toNat - s.headerBytes) s.headerBytes }

/-- ENCODE (R104). -/
def execEncode (s : State) : Result :=
  let n := s.headerBytes
  if s.hlenField.toNat < 5 then .next (raiseError .hlenBad s)
  else if s.tlenField.toNat < n then .next (raiseError .tlenShort s)
  else if s.baseOff + n > s.bufBytes then .next (raiseError .bounds s)
  else
    withRegion s (s.baseOff + 20) (n - 20) fun options =>
      .next (succeed (encodeWrites s (packFields s ++ options)))

/-- The payload length under the framing rule (R111). -/
def payloadLength (tlen received headerBytes : Nat) : Nat := min tlen received - headerBytes

/-- `UnpackFields`: the five header words into the field registers (R98). -/
def unpackFields (s : State) (h : List Byte) : State :=
  { s with
    hdr0 := wordAt h 0
    hdr1 := wordAt h 1
    hdr2 := wordAt h 2
    hdr3 := wordAt h 3
    hdr4 := wordAt h 4 }

/-- The checks of a received header (R100, R110) and the acceptance gate (R112), written into
STATUS in the order of R109. -/
def writeChecks (s : State) (h : List Byte) : State :=
  let cb := csumBad (checksum (headerImage h)) (beHalf (byteAt h 10) (byteAt h 11))
  let vb := verBad ((byteAt h 0).extractLsb' 4 4)
  let tm := tlenMismatch (beHalf (byteAt h 2) (byteAt h 3)) s.lenField
  writeFlag 11 (acceptGate s.strict cb vb tm)
    (writeFlag 10 tm (writeFlag 9 vb (writeFlag 8 cb s)))

/-- What a successful DECODE writes, from the header bytes `h` (R109). -/
def decodeWrites (s : State) (h : List Byte) : State :=
  let tlen := (beHalf (byteAt h 2) (byteAt h 3)).toNat
  { writeChecks (unpackFields s h) h with
    result := resultWord (onesSum (headerImage h))
    payload := payloadWord (payloadLength tlen s.lenBytes h.length) h.length }

/-- DECODE (R109): bounds and length first, then HLEN from the low nibble of `Buf[BASE]`, then the
header bytes. -/
def execDecode (s : State) : Result :=
  if s.baseOff + s.lenBytes > s.bufBytes then .next (raiseError .bounds s)
  else if s.lenBytes < 20 then .next (raiseError .short s)
  else
    withByte s s.baseOff fun first =>
      if hlenOf first < 5 then .next (raiseError .hlenBad s)
      else if 4 * hlenOf first > s.lenBytes then .next (raiseError .overrun s)
      else
        withRegion s s.baseOff (4 * hlenOf first) fun header =>
          .next (succeed (decodeWrites s header))

end Sys2Proof.Machine
end

