-- ==== Sys2Proof/Machine/Illegal.lean ====
section
/-! DEFINITION. The illegal command words (60_exceptions.md R117). -/

namespace Sys2Proof.Machine

/-- An accepted illegal word ends with ILLEGAL_CMD, whatever the word, before any operand is read
(R117). -/
def execIllegal (_word : Word) (s : State) : Result := .next (raiseError .illegalCmd s)

end Sys2Proof.Machine
end

