-- ==== Sys2Proof/Machine/Engine.lean ====
section
/-! DEFINITION. The engine's turn and one event of the schedule (10_state.md R13). -/

namespace Sys2Proof.Machine

/-- The command word the engine performs on its turn: PEND while BUSY is 1 (R13, R22). -/
def pendingWord (s : State) : Option Word := if s.busyFlag then s.pend else none

/-- The engine's turn: the whole pending command in one step (R13), or nothing when no command is
pending. -/
def engineTurn (s : State) : Result :=
  match pendingWord s with
  | some w => exec (decodeWord w) s
  | none => .next s

/-- One event of the schedule (R13, R136). -/
def runEvent (e : Event) (s : State) : Result :=
  match e with
  | .read a => .next (hostRead a s)
  | .write a data strb => .next (busWrite s a data strb)
  | .reset => .next (blockReset s)
  | .engine => engineTurn s

/-- Take the next event of the schedule; when it is empty the turn is the engine's, the fairness of
70_reset_and_hazards.md R150. -/
def nextTurn (s : State) : Result :=
  match s.events with
  | [] => engineTurn s
  | e :: rest => runEvent e { s with events := rest }

/-- Place a command as an accepted CMD write leaves it (R20), the engine's turn next. -/
def placeCommand (w : Word) (s : State) : State := { acceptCommand w s with events := [] }

end Sys2Proof.Machine
end

