-- ==== Sys2Proof/Safety.lean ====
section
/-! DEFINITION. The terms in which claims about the machine are made: what a region of the buffer
holds, what completion and an error leave in STATUS, the invariant of the reachable states, and
when an engine step stays within the specified behaviour. -/

namespace Sys2Proof.Machine

/-- The buffer holds the byte sequence at consecutive offsets from `a`. -/
abbrev Memory.holds (m : Memory) (a : Nat) (bytes : List Byte) : Prop :=
  ∀ k, k < bytes.length → m.byte (a + k) = bytes[k]?

/-- Some byte of the region is unwritten since reset. -/
abbrev Memory.hasUnwritten (m : Memory) (a n : Nat) : Prop :=
  ∃ k, k < n ∧ m.byte (a + k) = none

/-- Every written offset lies below `n`. -/
abbrev Memory.below (m : Memory) (n : Nat) : Prop := ∀ c ∈ m, c.1 < n

/-- STATUS after completion (60_exceptions.md R121) with the code `code` in ERR, bit by bit: BUSY 0,
DONE 1, ERR the code, every other bit as before. -/
abbrev CompletedStatus (old new : Word) (code : BitVec 4) : Prop :=
  ∀ j, j < 32 → new.getLsbD j =
    if j = 0 then false else if j = 1 then true
    else if 4 ≤ j ∧ j < 8 then code.getLsbD (j - 4) else old.getLsbD j

/-- STATUS after a DECODE without error (41_codec.md R109), bit by bit: as `CompletedStatus` with
code 0, and the four check flags written. -/
abbrev CheckedStatus (old new : Word) (csumBad verBad tlenMismatch accept : Bool) : Prop :=
  ∀ j, j < 32 → new.getLsbD j =
    if j = 0 then false else if j = 1 then true
    else if 4 ≤ j ∧ j < 8 then false
    else if j = 8 then csumBad else if j = 9 then verBad
    else if j = 10 then tlenMismatch else if j = 11 then accept else old.getLsbD j

/-- A command that ends with an error has changed nothing but STATUS: no other register, no buffer
byte (00_scope.md R10). PEND means nothing after completion (R121). -/
abbrev EndsWithError (s t : State) (code : BitVec 4) : Prop :=
  CompletedStatus s.status t.status code ∧
    t = { s with status := t.status, pend := t.pend }

/-- The unbounded sum of a byte sequence's big-endian 16-bit words, an odd trailing byte padded with
0 (40_checksum.md R89). -/
def sumNat : List Byte → Nat
  | [] => 0
  | [a] => 256 * a.toNat
  | a :: b :: rest => 256 * a.toNat + b.toNat + sumNat rest

/-- One fold of an unbounded sum (R87, R89). -/
def foldNat (t : Nat) : Nat := t / 65536 + t % 65536

/-- One's-complement addition `a +' b` of two 16-bit values: `t = a + b` exactly, then
`t[15:0] + t[16]` (R90). -/
def onesAdd (a b : Half) : Half :=
  let t : BitVec 17 := a.setWidth 17 + b.setWidth 17
  t.extractLsb' 0 16 + (t.extractLsb' 16 1).setWidth 16

/-- The two bytes of a 16-bit value exchanged (R90). -/
def swapHalf (h : Half) : Half := beHalf (loByte h) (hiByte h)

/-- The two bytes of every word exchanged, for an even length (R90). -/
def swapPairs : List Byte → List Byte
  | a :: b :: rest => b :: a :: swapPairs rest
  | l => l

/-- The sum of 40_checksum.md R94: each pair as `s[i] | s[i+1] << 8`, an odd trailing byte as the
value `s[n-1]`. -/
def sumWordsLittle : Word → List Byte → Word
  | acc, [] => acc
  | acc, [a] => acc + a.setWidth 32
  | acc, a :: b :: rest => sumWordsLittle (acc + (beHalf b a).setWidth 32) rest

/-- The one's-complement sum a little-endian host computes in its own order (R94). -/
def onesSumLittle (bytes : List Byte) : Half :=
  (foldLoop 2 (sumWordsLittle 0#32 bytes)).extractLsb' 0 16

/-- The bytes of a header from its five fixed words, each most significant byte first, and its option
bytes (30_encoding.md R70). -/
def headerOf (w0 w1 w2 w3 w4 : Word) (options : List Byte) : List Byte :=
  bytesOfWord w0 ++ bytesOfWord w1 ++ bytesOfWord w2 ++ bytesOfWord w3 ++ bytesOfWord w4 ++ options

/-- Header word 2 with its checksum field zero (41_codec.md R99). -/
def clearChecksum (w2 : Word) : Word := w2.extractLsb' 16 16 ++ 0#16

/-- The host events that do not reset the block: bus reads and writes. -/
def Event.isBus : Event → Bool
  | .read _ => true
  | .write _ _ _ => true
  | .reset => false
  | .engine => false

/-- The invariant of the machine: the buffer's canonical form and bound (R32), the reserved bits
that read 0 (10_state.md R16), BUSY with PEND (R22), never BUSY with DONE (R23), a clear ERR and
clear check flags while pending (R20, R24), the produced codes (R116), no check flag beside an
error (R25), and RESULT as a sum beside its complement, or still 0 (R30). -/
abbrev State.Inv (s : State) : Prop :=
  s.buf.wf = true ∧ s.buf.below s.bufBytes ∧
  s.ctrl.extractLsb' 2 30 = 0#30 ∧
  s.status.extractLsb' 2 2 = 0#2 ∧ s.status.extractLsb' 13 19 = 0#19 ∧
  s.base.extractLsb' 16 16 = 0#16 ∧ s.len.extractLsb' 16 16 = 0#16 ∧
  s.payload.extractLsb' 8 8 = 0#8 ∧
  s.pend.isSome = s.busyFlag ∧
  (s.busyFlag = true → s.doneFlag = false) ∧
  (s.busyFlag = true → s.errField = 0#4) ∧
  (s.busyFlag = true ∨ s.errField ≠ 0#4 → s.status.extractLsb' 8 4 = 0#4) ∧
  s.errField ≤ 6#4 ∧
  (s.result = 0#32 ∨ s.result.extractLsb' 0 16 = ~~~(s.result.extractLsb' 16 16))

/-- An engine turn within the specified behaviour: it reads no unwritten byte (U1). -/
def State.engineSafe (s : State) : Prop := ∀ f, engineTurn s ≠ .fault f

end Sys2Proof.Machine
end

