-- ==== Sys2Proof/Certificates/Slice0/Obligations.lean ====
section
/-! DEFINITION. The statements for the provers, one `Obligations.<Name>` each; OBLIGATIONS.json lists
them with the rules they rest on. -/

open Sys2Proof Sys2Proof.Machine

/-! ## Encoding -/

/-- Sample command words of 95_test_vectors.md section 2.4 decode as R63 to R65 say. -/
def Obligations.DecoderReadsSampleWords : Prop :=
  decode [0x01#8, 0x00#8, 0x00#8, 0x00#8] = .ok .csum ∧
  decode [0x02#8, 0x00#8, 0x00#8, 0x00#8] = .ok .encode ∧
  decode [0x03#8, 0x00#8, 0x00#8, 0x00#8] = .ok .decode ∧
  decode [0x11#8, 0x00#8, 0x00#8, 0x00#8] = .ok (.illegal 0x00000011#32) ∧
  decode [0x01#8, 0x00#8, 0x00#8, 0x80#8] = .ok (.illegal 0x80000001#32) ∧
  decode [0x01#8, 0x00#8, 0x00#8] = .error (.wrongLength 3)

/-- Decode and encode agree both ways: every well-formed command decodes from its own bytes, every
word decodes to a well-formed command whose word it is, and bytes that decode are that command's
bytes. No bit of a command word is dropped (R62, R64). -/
def Obligations.DecodeEncodeAgree : Prop :=
  (∀ i : Instr, i.wellFormed = true → decode (encode i) = .ok i) ∧
  (∀ w : Word, (decodeWord w).wellFormed = true ∧ encodeWord (decodeWord w) = w) ∧
  (∀ (bs : List Byte) (i : Instr), decode bs = .ok i → encode i = bs)

/-- R64 with R63: the legal words are exactly 1, 2 and 3, each selects its command, and every other
word is illegal and keeps its bits. -/
def Obligations.LegalWordsAreExactlyThree : Prop :=
  ∀ w : Word,
    (legalWord w = true ↔ w = 0x00000001#32 ∨ w = 0x00000002#32 ∨ w = 0x00000003#32) ∧
    (decodeWord w = .csum ↔ w = 0x00000001#32) ∧
    (decodeWord w = .encode ↔ w = 0x00000002#32) ∧
    (decodeWord w = .decode ↔ w = 0x00000003#32) ∧
    (∀ v, decodeWord w = .illegal v ↔ v = w ∧ legalWord w = false)

/-! ## The step -/

/-- A step runs the decoded command. The schedule in the state is the model's form of R13's
interleaving (log entry 1), and the engine's turn on an empty one that of R150 (log entry 7). With BUSY set and the command's word pending, the engine's turn
is `exec` of that command, on the state itself when the schedule is empty, and on the state with the
turn taken off the schedule when the turn stands there. -/
def Obligations.StepRunsPendingCommand : Prop :=
  ∀ (s : State) (w : Word) (i : Instr), s.busyFlag = true → s.pend = some w →
    decode (lanesOfWord w) = .ok i →
    (s.events = [] → step s = exec i s) ∧
    (∀ es, s.events = .engine :: es → step s = exec i { s with events := es })

/-- A host event is one step (the schedule is the model's form of R13, log entry 1): a read leaves the block and returns its data, a write is the bus write,
a reset is the reset of the block. -/
def Obligations.StepTakesHostEvents : Prop :=
  ∀ (s : State) (es : List Event),
    (∀ a, s.events = .read a :: es →
      step s = .next { s with events := es, readData := busRead s a }) ∧
    (∀ a data strb, s.events = .write a data strb :: es →
      step s = .next { busWrite s a data strb with events := es }) ∧
    (s.events = .reset :: es → step s = .next { blockReset s with events := es })

/-- R13: the engine has a step only when BUSY is 1; otherwise its turn changes nothing. That a turn
comes from the schedule, or from its end, is the model's form (log entries 1 and 7). -/
def Obligations.EngineStepsOnlyWhenBusy : Prop :=
  ∀ s : State, s.busyFlag = false →
    (s.events = [] → step s = .next s) ∧
    (∀ es, s.events = .engine :: es → step s = .next { s with events := es })

/-! ## CSUM -/

/-- R92: CSUM on a region inside the buffer writes `{S, ~S}` to RESULT and completes with ERR 0, and
nothing else changes; past the end of the buffer it raises BOUNDS. -/
def Obligations.CsumComputesChecksum : Prop :=
  decodeWord 0x00000001#32 = .csum ∧
  ∀ s : State,
    (s.baseOff + s.lenBytes > s.bufBytes →
      ∃ t, exec .csum s = .next t ∧ EndsWithError s t 2#4) ∧
    (∀ bytes : List Byte, s.baseOff + s.lenBytes ≤ s.bufBytes → bytes.length = s.lenBytes →
      s.buf.holds s.baseOff bytes →
      ∃ t, exec .csum s = .next t ∧ CompletedStatus s.status t.status 0#4 ∧
        t = { s with
          status := t.status
          result := onesSum bytes ++ ~~~onesSum bytes
          pend := t.pend })

/-- R93, first rows: with LEN 0 no byte is read and RESULT is 0x0000FFFF, for BASE up to and including
BUF_BYTES; beyond it CSUM raises BOUNDS. -/
def Obligations.CsumOfEmptyRegion : Prop :=
  ∀ s : State, s.lenField = 0#16 →
    (s.baseOff ≤ s.bufBytes → ∃ t, exec .csum s = .next t ∧ t.result = 0x0000FFFF#32 ∧ t.errField = 0#4) ∧
    (s.baseOff > s.bufBytes → ∃ t, exec .csum s = .next t ∧ EndsWithError s t 2#4)

/-- R95: CSUM depends on BASE and LEN only through which bytes they select, and on nothing else. -/
def Obligations.CsumDependsOnRegionOnly : Prop :=
  ∀ (s s' : State) (bytes : List Byte),
    s.baseOff + s.lenBytes ≤ s.bufBytes → s'.baseOff + s'.lenBytes ≤ s'.bufBytes →
    bytes.length = s.lenBytes → bytes.length = s'.lenBytes →
    s.buf.holds s.baseOff bytes → s'.buf.holds s'.baseOff bytes →
    ∃ t t', exec .csum s = .next t ∧ exec .csum s' = .next t' ∧ t.result = t'.result

/-! ## ENCODE -/

/-- R101, R102: a successful ENCODE. With `w0` the register HDR0 with version 4, the header image is
the five words of the field registers with the checksum field zero and the option bytes, `c` is its
checksum, and the buffer then holds the header with `c` in its field; every other buffer byte, and
every register but STATUS, HDR0.VER, HDR2.CHECKSUM, RESULT and PAYLOAD, is as before. -/
def Obligations.EncodeWritesHeader : Prop :=
  ∀ (s : State) (options : List Byte),
    5 ≤ s.hlenField.toNat → s.headerBytes ≤ s.tlenField.toNat →
    s.baseOff + s.headerBytes ≤ s.bufBytes →
    options.length = s.headerBytes - 20 → s.buf.holds (s.baseOff + 20) options →
    let w0 : Word := 4#4 ++ s.hdr0.extractLsb' 0 28
    let sum := onesSum (headerOf w0 s.hdr1 (clearChecksum s.hdr2) s.hdr3 s.hdr4 options)
    let w2 : Word := s.hdr2.extractLsb' 16 16 ++ ~~~sum
    ∃ t, exec .encode s = .next t ∧
      CompletedStatus s.status t.status 0#4 ∧
      t.buf.holds s.baseOff (headerOf w0 s.hdr1 w2 s.hdr3 s.hdr4 options) ∧
      (∀ a, ¬ (s.baseOff ≤ a ∧ a < s.baseOff + s.headerBytes) → t.buf.byte a = s.buf.byte a) ∧
      t = { s with
        status := t.status
        buf := t.buf
        hdr0 := w0
        hdr2 := w2
        result := sum ++ ~~~sum
        payload :=
          BitVec.ofNat 16 (s.tlenField.toNat - s.headerBytes) ++ 0#8 ++ BitVec.ofNat 8 s.headerBytes
        pend := t.pend }

/-- R104: where ENCODE raises an error, in its order: HLEN below 5, TLEN below the header size, the
region past the buffer. Nothing but STATUS changes. -/
def Obligations.EncodeRaisesErrors : Prop :=
  ∀ s : State,
    (s.hlenField.toNat < 5 → ∃ t, exec .encode s = .next t ∧ EndsWithError s t 4#4) ∧
    (5 ≤ s.hlenField.toNat → s.tlenField.toNat < 4 * s.hlenField.toNat →
      ∃ t, exec .encode s = .next t ∧ EndsWithError s t 6#4) ∧
    (5 ≤ s.hlenField.toNat → 4 * s.hlenField.toNat ≤ s.tlenField.toNat →
      s.baseOff + 4 * s.hlenField.toNat > s.bufBytes →
      ∃ t, exec .encode s = .next t ∧ EndsWithError s t 2#4)

/-- R105: two ENCODEs with the same BASE, field registers and option bytes write the same bytes and the
same registers, whatever HDR0.VER and HDR2.CHECKSUM held; and an ENCODE repeated right after itself
leaves the whole machine as the first left it. -/
def Obligations.EncodeIsDeterministic : Prop :=
  (∀ s s' t t' : State, exec .encode s = .next t → exec .encode s' = .next t' →
    t.errField = 0#4 → t'.errField = 0#4 → s.baseOff = s'.baseOff →
    s.hdr0.extractLsb' 0 28 = s'.hdr0.extractLsb' 0 28 → s.hdr1 = s'.hdr1 →
    s.hdr2.extractLsb' 16 16 = s'.hdr2.extractLsb' 16 16 → s.hdr3 = s'.hdr3 → s.hdr4 = s'.hdr4 →
    (∀ k, 20 ≤ k → k < s.headerBytes → s.buf.byte (s.baseOff + k) = s'.buf.byte (s.baseOff + k)) →
    t.hdr0 = t'.hdr0 ∧ t.hdr2 = t'.hdr2 ∧ t.result = t'.result ∧ t.payload = t'.payload ∧
    ∀ k, k < s.headerBytes → t.buf.byte (s.baseOff + k) = t'.buf.byte (s.baseOff + k)) ∧
  (∀ s t : State, s.buf.wf = true → exec .encode s = .next t → t.errField = 0#4 →
    exec .encode t = .next t)

/-! ## DECODE -/

/-- R98, R110: a successful DECODE of a header given by its words and option bytes: the five words go
to the field registers, the check flags are computed, RESULT holds the sum of the image and its
complement, PAYLOAD the framing; the buffer and every other register are as before. -/
def Obligations.DecodeUnpacksHeader : Prop :=
  ∀ (s : State) (w0 w1 w2 w3 w4 : Word) (options : List Byte),
    let n := 20 + options.length
    let sum := onesSum (headerOf w0 w1 (clearChecksum w2) w3 w4 options)
    let tlen : Half := w0.extractLsb' 0 16
    let csumBad : Bool := decide (w2.extractLsb' 0 16 ≠ ~~~sum)
    let verBad : Bool := decide (w0.extractLsb' 28 4 ≠ 4#4)
    let tlenMismatch : Bool := decide (tlen ≠ s.lenField)
    s.baseOff + s.lenBytes ≤ s.bufBytes → n = 4 * (w0.extractLsb' 24 4).toNat →
    n ≤ s.lenBytes → s.buf.holds s.baseOff (headerOf w0 w1 w2 w3 w4 options) →
    ∃ t, exec .decode s = .next t ∧
      CheckedStatus s.status t.status csumBad verBad tlenMismatch
        (!s.strict || !(csumBad || verBad || tlenMismatch)) ∧
      t = { s with
        status := t.status
        hdr0 := w0
        hdr1 := w1
        hdr2 := w2
        hdr3 := w3
        hdr4 := w4
        result := sum ++ ~~~sum
        payload := BitVec.ofNat 16 (min tlen.toNat s.lenBytes - n) ++ 0#8 ++ BitVec.ofNat 8 n
        pend := t.pend }

/-- R108, R109: where DECODE raises an error, in its order: the region past the buffer, LEN below 20,
HLEN of byte 0 below 5, the header longer than LEN. Nothing but STATUS changes. -/
def Obligations.DecodeRaisesErrors : Prop :=
  ∀ s : State,
    (s.baseOff + s.lenBytes > s.bufBytes → ∃ t, exec .decode s = .next t ∧ EndsWithError s t 2#4) ∧
    (s.baseOff + s.lenBytes ≤ s.bufBytes → s.lenBytes < 20 →
      ∃ t, exec .decode s = .next t ∧ EndsWithError s t 3#4) ∧
    (∀ first : Byte, s.baseOff + s.lenBytes ≤ s.bufBytes → 20 ≤ s.lenBytes →
      s.buf.byte s.baseOff = some first →
      (hlenOf first < 5 → ∃ t, exec .decode s = .next t ∧ EndsWithError s t 4#4) ∧
      (5 ≤ hlenOf first → 4 * hlenOf first > s.lenBytes →
        ∃ t, exec .decode s = .next t ∧ EndsWithError s t 5#4))

/-- R112: with STRICT 1, ACCEPT after a DECODE without error is 1 exactly when the three check flags
are 0; with STRICT 0 it is 1; after an error it is 0. The three check flags come out the same whatever
CTRL holds. -/
def Obligations.AcceptFollowsStrict : Prop :=
  ∀ s t : State, s.Inv → s.busyFlag = true → exec .decode s = .next t →
    (t.errField = 0#4 → s.strict = true →
      (t.acceptFlag = true ↔
        t.csumBadFlag = false ∧ t.verBadFlag = false ∧ t.tlenMismatchFlag = false)) ∧
    (t.errField = 0#4 → s.strict = false → t.acceptFlag = true) ∧
    (t.errField ≠ 0#4 → t.acceptFlag = false) ∧
    (∀ c : Word, ∃ u, exec .decode { s with ctrl := c } = .next u ∧ u.errField = t.errField ∧
      u.csumBadFlag = t.csumBadFlag ∧ u.verBadFlag = t.verBadFlag ∧
      u.tlenMismatchFlag = t.tlenMismatchFlag)

/-- R114: when the image sums to 0xFFFF, the only stored checksum that is not CSUM_BAD is 0x0000; a
stored 0xFFFF is CSUM_BAD, although the whole header sums to 0xFFFF with it as with 0x0000. -/
def Obligations.NegativeZeroIsRejected : Prop :=
  ∀ (s : State) (w0 w1 w2 w3 w4 : Word) (options : List Byte),
    s.baseOff + s.lenBytes ≤ s.bufBytes →
    20 + options.length = 4 * (w0.extractLsb' 24 4).toNat → 20 + options.length ≤ s.lenBytes →
    s.buf.holds s.baseOff (headerOf w0 w1 w2 w3 w4 options) →
    onesSum (headerOf w0 w1 (clearChecksum w2) w3 w4 options) = 0xFFFF#16 →
    (w2.extractLsb' 0 16 = 0xFFFF#16 ∨ w2.extractLsb' 0 16 = 0x0000#16 →
      onesSum (headerOf w0 w1 w2 w3 w4 options) = 0xFFFF#16) ∧
    ∃ t, exec .decode s = .next t ∧
      (t.csumBadFlag = true ↔ w2.extractLsb' 0 16 ≠ 0x0000#16)

/-- R115: a 20-byte header with LEN = TLEN = 20 + k gives POFF 20 and PLEN k. -/
def Obligations.PayloadStartsAtTwenty : Prop :=
  ∀ (s : State) (w0 w1 w2 w3 w4 : Word) (k : Nat),
    s.baseOff + s.lenBytes ≤ s.bufBytes → w0.extractLsb' 24 4 = 5#4 →
    s.lenBytes = 20 + k → (w0.extractLsb' 0 16).toNat = 20 + k →
    s.buf.holds s.baseOff (headerOf w0 w1 w2 w3 w4 []) →
    ∃ t, exec .decode s = .next t ∧ t.errField = 0#4 ∧
      (t.payload.extractLsb' 0 8).toNat = 20 ∧ (t.payload.extractLsb' 16 16).toNat = k

/-- R109: payload bytes are never read and the buffer is not written. Replacing every buffer byte
outside the header (outside byte 0 when HLEN is 0) leaves DECODE's outcome as it was. -/
def Obligations.DecodeIgnoresPayloadBytes : Prop :=
  ∀ (s t : State) (m : Memory),
    (∀ first, s.buf.byte s.baseOff = some first →
      ∀ k, k < max 1 (4 * hlenOf first) → m.byte (s.baseOff + k) = s.buf.byte (s.baseOff + k)) →
    exec .decode s = .next t →
    t.buf = s.buf ∧ exec .decode { s with buf := m } = .next { t with buf := m }

/-- R113: the round trip. After an ENCODE without error at a BASE with room for TLEN bytes, DECODE of
any state with the same buffer size, BASE and header bytes and LEN = TLEN completes with no check
flag, ACCEPT under either STRICT, and the field registers, RESULT and PAYLOAD of the ENCODE. -/
def Obligations.EncodeDecodeRoundTrip : Prop :=
  ∀ s t u : State, exec .encode s = .next t → t.errField = 0#4 →
    s.baseOff + s.tlenField.toNat ≤ s.bufBytes →
    u.bufSize = t.bufSize → u.base = t.base → u.lenField = s.tlenField →
    (∀ k, k < s.headerBytes → u.buf.byte (s.baseOff + k) = t.buf.byte (s.baseOff + k)) →
    ∃ v, exec .decode u = .next v ∧
      CheckedStatus u.status v.status false false false true ∧
      v = { u with
        status := v.status
        hdr0 := t.hdr0
        hdr1 := t.hdr1
        hdr2 := t.hdr2
        hdr3 := t.hdr3
        hdr4 := t.hdr4
        result := t.result
        payload := t.payload
        pend := v.pend } ∧
      v.payload =
        BitVec.ofNat 16 (s.tlenField.toNat - s.headerBytes) ++ 0#8 ++ BitVec.ofNat 8 s.headerBytes

/-! ## Illegal words, errors and completion -/

/-- R117: the engine step of a pending word that is not legal ends with ERR 1 and nothing else changes,
whatever the operands and the buffer hold. -/
def Obligations.IllegalWordEndsWithErrorOne : Prop :=
  ∀ s : State,
    (∀ w, ∃ t, exec (.illegal w) s = .next t ∧ EndsWithError s t 1#4) ∧
    (∀ w, legalWord w = false → s.busyFlag = true → s.pend = some w →
      ∃ t, engineTurn s = .next t ∧ EndsWithError s t 1#4)

/-- R118: every command that completes reports the first error of its order, or 0; the check flags of
DECODE are set only when no error is raised. -/
def Obligations.ErrorsFollowPriority : Prop :=
  ∀ s t : State,
    (∀ w, exec (.illegal w) s = .next t → t.errField = 1#4) ∧
    (exec .csum s = .next t →
      t.errField = if s.baseOff + s.lenBytes > s.bufBytes then 2#4 else 0#4) ∧
    (exec .encode s = .next t →
      t.errField =
        if s.hlenField.toNat < 5 then 4#4
        else if s.tlenField.toNat < 4 * s.hlenField.toNat then 6#4
        else if s.baseOff + 4 * s.hlenField.toNat > s.bufBytes then 2#4 else 0#4) ∧
    (exec .decode s = .next t →
      let hlen := hlenOf ((s.buf.byte s.baseOff).getD 0#8)
      t.errField =
        if s.baseOff + s.lenBytes > s.bufBytes then 2#4
        else if s.lenBytes < 20 then 3#4
        else if hlen < 5 then 4#4
        else if 4 * hlen > s.lenBytes then 5#4 else 0#4) ∧
    (exec .decode s = .next t → t.errField ≠ 0#4 →
      t.status.extractLsb' 8 4 = s.status.extractLsb' 8 4)

/-- R10, R120: a command that ends with an error has changed nothing but STATUS. -/
def Obligations.FailedCommandChangesOnlyStatus : Prop :=
  ∀ (i : Instr) (s t : State), exec i s = .next t → t.errField ≠ 0#4 →
    EndsWithError s t t.errField

/-- R25: after any command but DECODE, or a DECODE that raised an error, the four check flags read 0. -/
def Obligations.CheckFlagsComeFromDecode : Prop :=
  ∀ (i : Instr) (s t : State), s.Inv → s.busyFlag = true → exec i s = .next t →
    i ≠ .decode ∨ t.errField ≠ 0#4 →
    t.csumBadFlag = false ∧ t.verBadFlag = false ∧ t.tlenMismatchFlag = false ∧ t.acceptFlag = false

/-- What a command that completes leaves: BUSY 0 and DONE 1 (R121), WBUSY (R40) and CTRL, BASE and LEN
(R92, R104, R109, R117) as before, and IRQ following CTRL.IE (R35). That PEND, meaningless after
completion, is `none` is the model's choice (log entry 2), as is that the schedule stands (log
entry 1). -/
def Obligations.CompletedCommandLeavesIdle : Prop :=
  ∀ (i : Instr) (s t : State), exec i s = .next t →
    t.busyFlag = false ∧ t.doneFlag = true ∧ t.pend = none ∧ t.wbusyFlag = s.wbusyFlag ∧
    t.ctrl = s.ctrl ∧ t.base = s.base ∧ t.len = s.len ∧ t.bufSize = s.bufSize ∧
    t.events = s.events ∧ t.irq = s.ie

/-- U1 (log entry 6 keeps its fault): an engine step stops only by reading an unwritten byte of the
region its command reads, after every check that comes before the read has passed; no command is
refused. -/
def Obligations.EngineFaultsOnlyOnUnwrittenBytes : Prop :=
  ∀ s : State,
    ((∃ f, exec .csum s = .fault f) ↔
      s.baseOff + s.lenBytes ≤ s.bufBytes ∧ s.buf.hasUnwritten s.baseOff s.lenBytes) ∧
    ((∃ f, exec .encode s = .fault f) ↔
      5 ≤ s.hlenField.toNat ∧ s.headerBytes ≤ s.tlenField.toNat ∧
      s.baseOff + s.headerBytes ≤ s.bufBytes ∧
      s.buf.hasUnwritten (s.baseOff + 20) (s.headerBytes - 20)) ∧
    ((∃ f, exec .decode s = .fault f) ↔
      s.baseOff + s.lenBytes ≤ s.bufBytes ∧ 20 ≤ s.lenBytes ∧
      (s.buf.byte s.baseOff = none ∨
        ∃ first, s.buf.byte s.baseOff = some first ∧ 5 ≤ hlenOf first ∧
          4 * hlenOf first ≤ s.lenBytes ∧ s.buf.hasUnwritten s.baseOff (4 * hlenOf first))) ∧
    (∀ i o, exec i s = .fault (.unwrittenByte o) → s.buf.byte o = none ∧ o < s.bufBytes) ∧
    (∀ i r, exec i s ≠ .refused r)

/-! ## The checksum function -/

/-- R89: with at most 65535 bytes the accumulator is the exact sum, at most 0x7FFF8000; one fold leaves
at most 0x17FFE, a second at most 0xFFFF, and the one's-complement sum is that second fold. -/
def Obligations.AccumulatorNeverOverflows : Prop :=
  ∀ bytes : List Byte, bytes.length ≤ 65535 →
    sumNat bytes ≤ 0x7FFF8000 ∧ (sumWords 0#32 bytes).toNat = sumNat bytes ∧
    foldNat (sumNat bytes) ≤ 0x17FFE ∧ foldNat (foldNat (sumNat bytes)) ≤ 0xFFFF ∧
    (onesSum bytes).toNat = foldNat (foldNat (sumNat bytes))

/-- R90 items 1 and 2: the sum is 0 exactly when every byte is 0, and the checksum is 0xFFFF exactly
then; the checksum is 0 exactly when the sum is 0xFFFF. -/
def Obligations.ZeroSumIffAllBytesZero : Prop :=
  ∀ bytes : List Byte, bytes.length ≤ 65535 →
    (onesSum bytes = 0x0000#16 ↔ ∀ b ∈ bytes, b = 0#8) ∧
    (checksum bytes = 0xFFFF#16 ↔ ∀ b ∈ bytes, b = 0#8) ∧
    (checksum bytes = 0x0000#16 ↔ onesSum bytes = 0xFFFF#16)

/-- R90 item 3: reordering the 16-bit words leaves the sum unchanged. -/
def Obligations.WordOrderDoesNotMatter : Prop :=
  ∀ words words' : List Half, words.Perm words' →
    onesSum (words.flatMap fun h => [hiByte h, loByte h]) =
      onesSum (words'.flatMap fun h => [hiByte h, loByte h])

/-- R90 item 4: swapping the two bytes of every word byte-swaps the sum. -/
def Obligations.ByteSwapSwapsSum : Prop :=
  ∀ bytes : List Byte, bytes.length ≤ 65535 → bytes.length % 2 = 0 →
    onesSum (swapPairs bytes) = swapHalf (onesSum bytes)

/-- R90 item 5: an odd sequence sums as itself with a zero byte appended. -/
def Obligations.OddLengthPadsWithZero : Prop :=
  ∀ bytes : List Byte, bytes.length % 2 = 1 → onesSum bytes = onesSum (bytes ++ [0#8])

/-- R90 item 6: at an even boundary the sum is the one's-complement sum of the parts. -/
def Obligations.EvenSplitAddsSums : Prop :=
  ∀ a b : List Byte, (a ++ b).length ≤ 65535 → a.length % 2 = 0 →
    onesSum (a ++ b) = onesAdd (onesSum a) (onesSum b)

/-- R91: a sequence with its checksum appended sums to 0xFFFF; an odd one is padded first. -/
def Obligations.AppendedChecksumSumsToOnes : Prop :=
  ∀ bytes : List Byte, bytes.length + 3 ≤ 65535 →
    let c := checksum bytes
    (bytes.length % 2 = 0 → onesSum (bytes ++ [hiByte c, loByte c]) = 0xFFFF#16) ∧
    (bytes.length % 2 = 1 → onesSum (bytes ++ [0#8, hiByte c, loByte c]) = 0xFFFF#16)

/-- R94: a little-endian host that sums in its own order has the byte swap of the big-endian sum, and
storing its checksum low byte first writes the same two bytes as the big-endian one high byte first. -/
def Obligations.HostOrderWritesSameBytes : Prop :=
  ∀ bytes : List Byte, bytes.length ≤ 65535 →
    onesSumLittle bytes = swapHalf (onesSum bytes) ∧
    [loByte (~~~onesSumLittle bytes), hiByte (~~~onesSumLittle bytes)] =
      [hiByte (checksum bytes), loByte (checksum bytes)]

/-! ## The host's writes and reads -/

/-- R20: CMD reads 0. A strobed write to it on the idle block is accepted, whatever the word: PEND takes
the strobed bytes, BUSY is set, DONE, ERR and the check flags are cleared, and nothing else changes.
While BUSY is 1 the write is discarded and sets WBUSY. -/
def Obligations.CommandWriteIsAccepted : Prop :=
  ∀ (s : State) (a : HostAddr) (data : Word) (strb : Strobe),
    inWindow a = false → wordOffset a = 0x10 →
    busRead s a = 0#32 ∧
    (strb ≠ 0#4 → s.busyFlag = false →
      ∃ w : Word, (∀ j, j < 32 → w.getLsbD j = (data.getLsbD j && strb.getLsbD (j / 8))) ∧
        (∀ j, j < 32 → (busWrite s a data strb).status.getLsbD j =
          if j = 0 then true else if j = 1 then false
          else if 4 ≤ j ∧ j < 12 then false else s.status.getLsbD j) ∧
        busWrite s a data strb =
          { s with status := (busWrite s a data strb).status, pend := some w }) ∧
    (strb ≠ 0#4 → s.busyFlag = true →
      (busWrite s a data strb).wbusyFlag = true ∧
      (∀ j, j < 32 → j ≠ 12 → (busWrite s a data strb).status.getLsbD j = s.status.getLsbD j) ∧
      busWrite s a data strb = { s with status := (busWrite s a data strb).status })

/-- R26: while BUSY is 1, a strobed write to CTRL, CMD, BASE, LEN, HDR0 to HDR4 or the window is
discarded and sets WBUSY; one to ID, CFG, RESULT, PAYLOAD or a reserved address changes nothing. -/
def Obligations.BusyDiscardsWrites : Prop :=
  ∀ (s : State) (a : HostAddr) (data : Word) (strb : Strobe), s.busyFlag = true → strb ≠ 0#4 →
    (inWindow a = true ∨
        wordOffset a ∈ [0x08, 0x10, 0x14, 0x18, 0x24, 0x28, 0x2C, 0x30, 0x34] →
      (∀ j, j < 32 → (busWrite s a data strb).status.getLsbD j =
        if j = 12 then true else s.status.getLsbD j) ∧
      busWrite s a data strb = { s with status := (busWrite s a data strb).status }) ∧
    (inWindow a = false →
      wordOffset a ∈ [0x00, 0x04, 0x1C, 0x20] ∨ 0x38 ≤ wordOffset a →
      busWrite s a data strb = s)

/-- R39: a write to an idle RW register takes the strobed bytes of its writable bits and keeps the
other bytes; a write with no strobe has no effect at all, busy or not. -/
def Obligations.StrobedWriteTakesWritableBits : Prop :=
  ∀ (s : State) (a : HostAddr) (data : Word) (strb : Strobe),
    (strb = 0#4 → busWrite s a data strb = s) ∧
    (strb ≠ 0#4 → s.busyFlag = false → inWindow a = false →
      let new (old writable : Word) : Word :=
        BitVec.ofFnLE fun j : Fin 32 =>
          if strb.getLsbD (j.val / 8) then data.getLsbD j.val && writable.getLsbD j.val
          else old.getLsbD j.val
      (wordOffset a = 0x08 → busWrite s a data strb = { s with ctrl := new s.ctrl 0x00000003#32 }) ∧
      (wordOffset a = 0x14 → busWrite s a data strb = { s with base := new s.base 0x0000FFFF#32 }) ∧
      (wordOffset a = 0x18 → busWrite s a data strb = { s with len := new s.len 0x0000FFFF#32 }) ∧
      (wordOffset a = 0x24 → busWrite s a data strb = { s with hdr0 := new s.hdr0 0xFFFFFFFF#32 }) ∧
      (wordOffset a = 0x28 → busWrite s a data strb = { s with hdr1 := new s.hdr1 0xFFFFFFFF#32 }) ∧
      (wordOffset a = 0x2C → busWrite s a data strb = { s with hdr2 := new s.hdr2 0xFFFFFFFF#32 }) ∧
      (wordOffset a = 0x30 → busWrite s a data strb = { s with hdr3 := new s.hdr3 0xFFFFFFFF#32 }) ∧
      (wordOffset a = 0x34 → busWrite s a data strb = { s with hdr4 := new s.hdr4 0xFFFFFFFF#32 }))

/-- R16, R54: RO registers and reserved addresses ignore a write of the idle block too. -/
def Obligations.ReadOnlyAddressesIgnoreWrites : Prop :=
  ∀ (s : State) (a : HostAddr) (data : Word) (strb : Strobe), inWindow a = false →
    wordOffset a ∈ [0x00, 0x04, 0x1C, 0x20] ∨ 0x38 ≤ wordOffset a → busWrite s a data strb = s

/-- R21: a write to STATUS, busy or not, clears DONE by data bit 1 in strobed lane 0 and WBUSY by data
bit 12 in strobed lane 1; every other bit and all other state ignore it. -/
def Obligations.StatusWriteClearsOnOne : Prop :=
  ∀ (s : State) (a : HostAddr) (data : Word) (strb : Strobe),
    inWindow a = false → wordOffset a = 0x0C → strb ≠ 0#4 →
    (∀ j, j < 32 → (busWrite s a data strb).status.getLsbD j =
      if j = 1 then s.status.getLsbD 1 && !(data.getLsbD 1 && strb.getLsbD 0)
      else if j = 12 then s.status.getLsbD 12 && !(data.getLsbD 12 && strb.getLsbD 1)
      else s.status.getLsbD j) ∧
    busWrite s a data strb = { s with status := (busWrite s a data strb).status }

/-- R42, R43, R48: a window write on the idle block stores, for each strobed lane `j`, that lane's byte
at offset `o + 3 - j` where the offset is present, and changes nothing else. -/
def Obligations.WindowWriteStoresLanes : Prop :=
  ∀ (s : State) (a : HostAddr) (data : Word) (strb : Strobe),
    inWindow a = true → s.busyFlag = false →
    (∀ j, j < 4 → strb.getLsbD j = true → wordOffset a + 3 - j < s.bufBytes →
      (busWrite s a data strb).buf.byte (wordOffset a + 3 - j) =
        some (data.extractLsb' (8 * j) 8)) ∧
    (∀ b, (∀ j, j < 4 → strb.getLsbD j = true → b ≠ wordOffset a + 3 - j) ∨ s.bufBytes ≤ b →
      (busWrite s a data strb).buf.byte b = s.buf.byte b) ∧
    busWrite s a data strb = { s with buf := (busWrite s a data strb).buf }

/-- R43, R48, R49: a window word written whole on the idle block reads back as written, and its four
bytes stand most significant first. -/
def Obligations.WindowWordReadsBack : Prop :=
  ∀ (s : State) (a : HostAddr) (data : Word),
    inWindow a = true → s.busyFlag = false → wordOffset a < s.bufBytes →
    busRead (busWrite s a data 0xF#4) a = data ∧
    (busWrite s a data 0xF#4).buf.holds (wordOffset a) (bytesOfWord data)

/-- R43: a window read shows the byte at the lowest offset in bits 31:24, so that a header word in the
buffer reads as its field register would. -/
def Obligations.WindowReadIsBigEndian : Prop :=
  ∀ (s : State) (a : HostAddr), inWindow a = true → wordOffset a < s.bufBytes →
    (∀ b0 b1 b2 b3 : Byte, s.buf.holds (wordOffset a) [b0, b1, b2, b3] →
      (busRead s a).extractLsb' 24 8 = b0 ∧ (busRead s a).extractLsb' 16 8 = b1 ∧
      (busRead s a).extractLsb' 8 8 = b2 ∧ (busRead s a).extractLsb' 0 8 = b3) ∧
    (∀ w : Word, s.buf.holds (wordOffset a) (bytesOfWord w) → busRead s a = w)

/-- R42: an absent window byte reads 0 and ignores writes: a window word at or past BUF_BYTES reads 0,
and a write to it leaves the idle block as it was. -/
def Obligations.AbsentWindowReadsZero : Prop :=
  ∀ (s : State) (a : HostAddr) (data : Word) (strb : Strobe),
    inWindow a = true → s.bufBytes ≤ wordOffset a →
    busRead s a = 0#32 ∧ (s.busyFlag = false → busWrite s a data strb = s)

/-- R15, R17, R18, R49, R54: what every register address reads as; ID is the constant, two to the power
CFG is BUF_BYTES, CMD and the reserved addresses read 0. -/
def Obligations.RegisterMapReads : Prop :=
  ∀ (s : State) (a : HostAddr), inWindow a = false →
    (wordOffset a = 0x00 → busRead s a = 0x49504843#32) ∧
    (wordOffset a = 0x04 → 2 ^ (busRead s a).toNat = s.bufBytes ∧
      6 ≤ (busRead s a).toNat ∧ (busRead s a).toNat ≤ 16) ∧
    (wordOffset a = 0x08 → busRead s a = s.ctrl) ∧
    (wordOffset a = 0x0C → busRead s a = s.status) ∧
    (wordOffset a = 0x10 → busRead s a = 0#32) ∧
    (wordOffset a = 0x14 → busRead s a = s.base) ∧
    (wordOffset a = 0x18 → busRead s a = s.len) ∧
    (wordOffset a = 0x1C → busRead s a = s.result) ∧
    (wordOffset a = 0x20 → busRead s a = s.payload) ∧
    (wordOffset a = 0x24 → busRead s a = s.hdr0) ∧
    (wordOffset a = 0x28 → busRead s a = s.hdr1) ∧
    (wordOffset a = 0x2C → busRead s a = s.hdr2) ∧
    (wordOffset a = 0x30 → busRead s a = s.hdr3) ∧
    (wordOffset a = 0x34 → busRead s a = s.hdr4) ∧
    (0x38 ≤ wordOffset a → busRead s a = 0#32)

/-- R46: the block ignores `A[1:0]`: two addresses that differ only there act alike. -/
def Obligations.LowAddressBitsAreIgnored : Prop :=
  ∀ (s : State) (a a' : HostAddr) (data : Word) (strb : Strobe),
    a.extractLsb' 2 15 = a'.extractLsb' 2 15 →
    busRead s a = busRead s a' ∧ busWrite s a data strb = busWrite s a' data strb

/-- R49, R52, as steps of the schedule (log entry 1): a read changes no state but the data the host
holds (log entry 4), and two reads of one address with
no step between them return the same data. -/
def Obligations.ReadsHaveNoSideEffect : Prop :=
  ∀ (s : State) (a : HostAddr) (es : List Event), s.events = .read a :: .read a :: es →
    ∃ t u, step s = .next t ∧ step t = .next u ∧
      t = { s with events := .read a :: es, readData := t.readData } ∧
      u = { t with events := es } ∧ t.readData = busRead s a

/-- R22: BUSY is set by an accepted CMD write and by nothing else, the host never clears it, and every
completion and every reset clears it. -/
def Obligations.BusyRisesOnlyByAcceptance : Prop :=
  (∀ (s : State) (a : HostAddr) (data : Word) (strb : Strobe),
    (busWrite s a data strb).busyFlag = true ↔
      s.busyFlag = true ∨ inWindow a = false ∧ wordOffset a = 0x10 ∧ strb ≠ 0#4) ∧
  (∀ (i : Instr) (s t : State), exec i s = .next t → t.busyFlag = false) ∧
  (∀ s : State, (blockReset s).busyFlag = false)

/-- R23: DONE is set by completion alone; a host write clears it only through STATUS bit 1 or by an
accepted command, and reset clears it. -/
def Obligations.DoneRisesOnlyByCompletion : Prop :=
  (∀ (s : State) (a : HostAddr) (data : Word) (strb : Strobe),
    (busWrite s a data strb).doneFlag = true ↔
      s.doneFlag = true ∧ ¬ (inWindow a = false ∧
        (wordOffset a = 0x0C ∧ data.getLsbD 1 = true ∧ strb.getLsbD 0 = true ∨
          wordOffset a = 0x10 ∧ strb ≠ 0#4 ∧ s.busyFlag = false))) ∧
  (∀ (i : Instr) (s t : State), exec i s = .next t → t.doneFlag = true) ∧
  (∀ s : State, (blockReset s).doneFlag = false)

/-- R21, R30, R31: no host write changes RESULT or PAYLOAD, and none changes ERR or a check flag but an
accepted CMD write, which clears them. -/
def Obligations.HostCannotWriteResults : Prop :=
  ∀ (s : State) (a : HostAddr) (data : Word) (strb : Strobe),
    (busWrite s a data strb).result = s.result ∧ (busWrite s a data strb).payload = s.payload ∧
    (busWrite s a data strb).status.extractLsb' 4 8 =
      if inWindow a = false ∧ wordOffset a = 0x10 ∧ strb ≠ 0#4 ∧ s.busyFlag = false then 0#8
      else s.status.extractLsb' 4 8

/-! ## Reset and interrupt -/

/-- R136, R138: a reset in any state, with a command pending or not, leaves every register at its reset
value, no command for the engine, every buffer byte unwritten (R137), IRQ 0, and ID and CFG as they
were. -/
def Obligations.ResetEventRestoresReset : Prop :=
  ∀ s : State,
    let t := blockReset s
    t.ctrl = 0x00000002#32 ∧ t.status = 0x00000000#32 ∧ t.base = 0x00000000#32 ∧
    t.len = 0x00000000#32 ∧ t.result = 0x00000000#32 ∧ t.payload = 0x00000000#32 ∧
    t.hdr0 = 0x00000000#32 ∧ t.hdr1 = 0x00000000#32 ∧ t.hdr2 = 0x00000000#32 ∧
    t.hdr3 = 0x00000000#32 ∧ t.hdr4 = 0x00000000#32 ∧ engineTurn t = .next t ∧
    (∀ a, t.buf.byte a = none) ∧ t.irq = false ∧
    (∀ a, inWindow a = false → wordOffset a = 0x00 → busRead t a = 0x49504843#32) ∧
    (∀ a, inWindow a = false → wordOffset a = 0x04 →
      2 ^ (busRead t a).toNat = t.bufBytes ∧ t.bufBytes = s.bufBytes)

/-- R136, R138: the state after reset. That its buffer has the reference size of R6 (log entry 3) and
that no pending command is `none` (log entry 2) are the model's choices. -/
def Obligations.ResetStateValues : Prop :=
  State.reset.ctrl = 0x00000002#32 ∧ State.reset.status = 0x00000000#32 ∧
  State.reset.base = 0x00000000#32 ∧ State.reset.len = 0x00000000#32 ∧
  State.reset.result = 0x00000000#32 ∧ State.reset.payload = 0x00000000#32 ∧
  State.reset.hdr0 = 0x00000000#32 ∧ State.reset.hdr1 = 0x00000000#32 ∧
  State.reset.hdr2 = 0x00000000#32 ∧ State.reset.hdr3 = 0x00000000#32 ∧
  State.reset.hdr4 = 0x00000000#32 ∧ State.reset.pend = none ∧
  (∀ a, State.reset.buf.byte a = none) ∧ State.reset.irq = false ∧ State.reset.bufBytes = 65536

/-- R35: IRQ is CTRL.IE and DONE; it rises at a completion when IE is 1, and falls when the host clears
DONE, clears IE, has a new command accepted, or resets the block. -/
def Obligations.InterruptRisesAndFalls : Prop :=
  (∀ s : State, s.irq = (s.ctrl.getLsbD 0 && s.status.getLsbD 1)) ∧
  (∀ (i : Instr) (s t : State), exec i s = .next t → s.ctrl.getLsbD 0 = true → t.irq = true) ∧
  (∀ (s : State) (a : HostAddr) (data : Word) (strb : Strobe), inWindow a = false →
    (wordOffset a = 0x0C → data.getLsbD 1 = true → strb.getLsbD 0 = true →
      (busWrite s a data strb).irq = false) ∧
    (s.busyFlag = false → wordOffset a = 0x08 → data.getLsbD 0 = false → strb.getLsbD 0 = true →
      (busWrite s a data strb).irq = false) ∧
    (s.busyFlag = false → wordOffset a = 0x10 → strb ≠ 0#4 →
      (busWrite s a data strb).irq = false)) ∧
  (∀ s : State, (blockReset s).irq = false)

/-! ## Invariants, interleaving and progress -/

/-- The invariant holds at reset. That PEND is `none` there and the buffer's size are the model's choices
(log entries 2 and 3). -/
def Obligations.InvariantHoldsAtReset : Prop := State.reset.Inv

/-- Every step, of the host, the engine or reset, keeps the invariant, and never changes the size
parameter. That PEND is present exactly while BUSY is the model's form (log entry 2). -/
def Obligations.StepKeepsInvariant : Prop :=
  ∀ s t : State, s.Inv → step s = .next t → t.Inv ∧ t.bufSize = s.bufSize

/-- R57, R143, R144, over the schedule of log entry 1: while a command is pending, no sequence of bus
accesses changes an operand: after
any reads and writes the state is as before but for WBUSY and DONE in STATUS and the data the host
read. -/
def Obligations.BusyFreezesOperands : Prop :=
  ∀ (s : State) (es : List Event), s.busyFlag = true → s.events = es →
    (∀ e ∈ es, e.isBus = true) →
    ∃ t, core.run es.length s = .next t ∧
      t = { s with status := t.status, readData := t.readData, events := [] } ∧
      ∀ j, j < 32 → j ≠ 1 → j ≠ 12 → t.status.getLsbD j = s.status.getLsbD j

/-- R144, P4, over the schedule of log entry 1 and with the faults of log entry 6: the outcome of a
pending command does not depend on when its engine step is taken: after
any bus accesses before it, the engine step ends in the same state but for WBUSY and the data the
host read, or in the same fault. -/
def Obligations.OutcomeIndependentOfEngineTiming : Prop :=
  ∀ (s : State) (w : Word) (es : List Event), s.busyFlag = true → s.pend = some w →
    (∀ e ∈ es, e.isBus = true) →
    (∀ t, step { s with events := [] } = .next t →
      ∃ u, core.run (es.length + 1) { s with events := es } = .next u ∧
        u = { t with status := u.status, readData := u.readData } ∧
        ∀ j, j < 32 → j ≠ 12 → u.status.getLsbD j = t.status.getLsbD j) ∧
    (∀ f, step { s with events := [] } = .fault f →
      core.run (es.length + 1) { s with events := es } = .fault f)

/-- R150, with the fairness of log entry 7 over the schedule of log entry 1: a command accepted and not
abandoned by reset completes. Under every finite schedule without a reset, within one step more than
the schedule has events: where the engine's turn reads no unwritten byte, the run answers a state with
BUSY 0 and DONE 1, and PEND `none`, which is the model's choice (log entry 2). Where it reads one, the
run stops with the fault of log entry 6, and the byte the fault names is an unwritten one. -/
def Obligations.AcceptedCommandCompletes : Prop :=
  ∀ (s : State) (w : Word), s.busyFlag = true → s.pend = some w → Event.reset ∉ s.events →
    (s.engineSafe → ∃ k t, k ≤ s.events.length + 1 ∧ core.run k s = .next t ∧
      t.busyFlag = false ∧ t.doneFlag = true ∧ t.pend = none) ∧
    (¬ s.engineSafe → ∃ k o, k ≤ s.events.length + 1 ∧
      core.run k s = .fault (.unwrittenByte o) ∧ o < s.bufBytes ∧ s.buf.byte o = none)
end

