-- ==== Sys2Proof/Laws/State.lean ====
section
/-! SUPPORT. One lemma for each field and each update of the state: what the named operations leave
unchanged, and the new value of the fields they write outright. True by `rfl`. -/

namespace Sys2Proof.Machine

variable (s : State)

@[simp] theorem writeFlag_bufSize (i : Nat) (b : Bool) : (writeFlag i b s).bufSize = s.bufSize := rfl
@[simp] theorem writeFlag_ctrl (i : Nat) (b : Bool) : (writeFlag i b s).ctrl = s.ctrl := rfl
@[simp] theorem writeFlag_base (i : Nat) (b : Bool) : (writeFlag i b s).base = s.base := rfl
@[simp] theorem writeFlag_len (i : Nat) (b : Bool) : (writeFlag i b s).len = s.len := rfl
@[simp] theorem writeFlag_result (i : Nat) (b : Bool) : (writeFlag i b s).result = s.result := rfl
@[simp] theorem writeFlag_payload (i : Nat) (b : Bool) : (writeFlag i b s).payload = s.payload := rfl
@[simp] theorem writeFlag_hdr0 (i : Nat) (b : Bool) : (writeFlag i b s).hdr0 = s.hdr0 := rfl
@[simp] theorem writeFlag_hdr1 (i : Nat) (b : Bool) : (writeFlag i b s).hdr1 = s.hdr1 := rfl
@[simp] theorem writeFlag_hdr2 (i : Nat) (b : Bool) : (writeFlag i b s).hdr2 = s.hdr2 := rfl
@[simp] theorem writeFlag_hdr3 (i : Nat) (b : Bool) : (writeFlag i b s).hdr3 = s.hdr3 := rfl
@[simp] theorem writeFlag_hdr4 (i : Nat) (b : Bool) : (writeFlag i b s).hdr4 = s.hdr4 := rfl
@[simp] theorem writeFlag_pend (i : Nat) (b : Bool) : (writeFlag i b s).pend = s.pend := rfl
@[simp] theorem writeFlag_buf (i : Nat) (b : Bool) : (writeFlag i b s).buf = s.buf := rfl
@[simp] theorem writeFlag_events (i : Nat) (b : Bool) : (writeFlag i b s).events = s.events := rfl
@[simp] theorem writeFlag_readData (i : Nat) (b : Bool) : (writeFlag i b s).readData = s.readData := rfl
@[simp] theorem writeFlag_resets (i : Nat) (b : Bool) : (writeFlag i b s).resets = s.resets := rfl

@[simp] theorem writeErr_bufSize (c : BitVec 4) : (writeErr c s).bufSize = s.bufSize := rfl
@[simp] theorem writeErr_ctrl (c : BitVec 4) : (writeErr c s).ctrl = s.ctrl := rfl
@[simp] theorem writeErr_base (c : BitVec 4) : (writeErr c s).base = s.base := rfl
@[simp] theorem writeErr_len (c : BitVec 4) : (writeErr c s).len = s.len := rfl
@[simp] theorem writeErr_result (c : BitVec 4) : (writeErr c s).result = s.result := rfl
@[simp] theorem writeErr_payload (c : BitVec 4) : (writeErr c s).payload = s.payload := rfl
@[simp] theorem writeErr_hdr0 (c : BitVec 4) : (writeErr c s).hdr0 = s.hdr0 := rfl
@[simp] theorem writeErr_hdr1 (c : BitVec 4) : (writeErr c s).hdr1 = s.hdr1 := rfl
@[simp] theorem writeErr_hdr2 (c : BitVec 4) : (writeErr c s).hdr2 = s.hdr2 := rfl
@[simp] theorem writeErr_hdr3 (c : BitVec 4) : (writeErr c s).hdr3 = s.hdr3 := rfl
@[simp] theorem writeErr_hdr4 (c : BitVec 4) : (writeErr c s).hdr4 = s.hdr4 := rfl
@[simp] theorem writeErr_pend (c : BitVec 4) : (writeErr c s).pend = s.pend := rfl
@[simp] theorem writeErr_buf (c : BitVec 4) : (writeErr c s).buf = s.buf := rfl
@[simp] theorem writeErr_events (c : BitVec 4) : (writeErr c s).events = s.events := rfl
@[simp] theorem writeErr_readData (c : BitVec 4) : (writeErr c s).readData = s.readData := rfl
@[simp] theorem writeErr_resets (c : BitVec 4) : (writeErr c s).resets = s.resets := rfl

@[simp] theorem complete_bufSize : (complete s).bufSize = s.bufSize := rfl
@[simp] theorem complete_ctrl : (complete s).ctrl = s.ctrl := rfl
@[simp] theorem complete_base : (complete s).base = s.base := rfl
@[simp] theorem complete_len : (complete s).len = s.len := rfl
@[simp] theorem complete_result : (complete s).result = s.result := rfl
@[simp] theorem complete_payload : (complete s).payload = s.payload := rfl
@[simp] theorem complete_hdr0 : (complete s).hdr0 = s.hdr0 := rfl
@[simp] theorem complete_hdr1 : (complete s).hdr1 = s.hdr1 := rfl
@[simp] theorem complete_hdr2 : (complete s).hdr2 = s.hdr2 := rfl
@[simp] theorem complete_hdr3 : (complete s).hdr3 = s.hdr3 := rfl
@[simp] theorem complete_hdr4 : (complete s).hdr4 = s.hdr4 := rfl
@[simp] theorem complete_buf : (complete s).buf = s.buf := rfl
@[simp] theorem complete_events : (complete s).events = s.events := rfl
@[simp] theorem complete_readData : (complete s).readData = s.readData := rfl
@[simp] theorem complete_resets : (complete s).resets = s.resets := rfl

@[simp] theorem raiseError_bufSize (e : CmdError) : (raiseError e s).bufSize = s.bufSize := rfl
@[simp] theorem raiseError_ctrl (e : CmdError) : (raiseError e s).ctrl = s.ctrl := rfl
@[simp] theorem raiseError_base (e : CmdError) : (raiseError e s).base = s.base := rfl
@[simp] theorem raiseError_len (e : CmdError) : (raiseError e s).len = s.len := rfl
@[simp] theorem raiseError_result (e : CmdError) : (raiseError e s).result = s.result := rfl
@[simp] theorem raiseError_payload (e : CmdError) : (raiseError e s).payload = s.payload := rfl
@[simp] theorem raiseError_hdr0 (e : CmdError) : (raiseError e s).hdr0 = s.hdr0 := rfl
@[simp] theorem raiseError_hdr1 (e : CmdError) : (raiseError e s).hdr1 = s.hdr1 := rfl
@[simp] theorem raiseError_hdr2 (e : CmdError) : (raiseError e s).hdr2 = s.hdr2 := rfl
@[simp] theorem raiseError_hdr3 (e : CmdError) : (raiseError e s).hdr3 = s.hdr3 := rfl
@[simp] theorem raiseError_hdr4 (e : CmdError) : (raiseError e s).hdr4 = s.hdr4 := rfl
@[simp] theorem raiseError_buf (e : CmdError) : (raiseError e s).buf = s.buf := rfl
@[simp] theorem raiseError_events (e : CmdError) : (raiseError e s).events = s.events := rfl
@[simp] theorem raiseError_readData (e : CmdError) : (raiseError e s).readData = s.readData := rfl
@[simp] theorem raiseError_resets (e : CmdError) : (raiseError e s).resets = s.resets := rfl

@[simp] theorem succeed_bufSize : (succeed s).bufSize = s.bufSize := rfl
@[simp] theorem succeed_ctrl : (succeed s).ctrl = s.ctrl := rfl
@[simp] theorem succeed_base : (succeed s).base = s.base := rfl
@[simp] theorem succeed_len : (succeed s).len = s.len := rfl
@[simp] theorem succeed_result : (succeed s).result = s.result := rfl
@[simp] theorem succeed_payload : (succeed s).payload = s.payload := rfl
@[simp] theorem succeed_hdr0 : (succeed s).hdr0 = s.hdr0 := rfl
@[simp] theorem succeed_hdr1 : (succeed s).hdr1 = s.hdr1 := rfl
@[simp] theorem succeed_hdr2 : (succeed s).hdr2 = s.hdr2 := rfl
@[simp] theorem succeed_hdr3 : (succeed s).hdr3 = s.hdr3 := rfl
@[simp] theorem succeed_hdr4 : (succeed s).hdr4 = s.hdr4 := rfl
@[simp] theorem succeed_buf : (succeed s).buf = s.buf := rfl
@[simp] theorem succeed_events : (succeed s).events = s.events := rfl
@[simp] theorem succeed_readData : (succeed s).readData = s.readData := rfl
@[simp] theorem succeed_resets : (succeed s).resets = s.resets := rfl

@[simp] theorem acceptCommand_bufSize (w : Word) : (acceptCommand w s).bufSize = s.bufSize := rfl
@[simp] theorem acceptCommand_ctrl (w : Word) : (acceptCommand w s).ctrl = s.ctrl := rfl
@[simp] theorem acceptCommand_base (w : Word) : (acceptCommand w s).base = s.base := rfl
@[simp] theorem acceptCommand_len (w : Word) : (acceptCommand w s).len = s.len := rfl
@[simp] theorem acceptCommand_result (w : Word) : (acceptCommand w s).result = s.result := rfl
@[simp] theorem acceptCommand_payload (w : Word) : (acceptCommand w s).payload = s.payload := rfl
@[simp] theorem acceptCommand_hdr0 (w : Word) : (acceptCommand w s).hdr0 = s.hdr0 := rfl
@[simp] theorem acceptCommand_hdr1 (w : Word) : (acceptCommand w s).hdr1 = s.hdr1 := rfl
@[simp] theorem acceptCommand_hdr2 (w : Word) : (acceptCommand w s).hdr2 = s.hdr2 := rfl
@[simp] theorem acceptCommand_hdr3 (w : Word) : (acceptCommand w s).hdr3 = s.hdr3 := rfl
@[simp] theorem acceptCommand_hdr4 (w : Word) : (acceptCommand w s).hdr4 = s.hdr4 := rfl
@[simp] theorem acceptCommand_buf (w : Word) : (acceptCommand w s).buf = s.buf := rfl
@[simp] theorem acceptCommand_events (w : Word) : (acceptCommand w s).events = s.events := rfl
@[simp] theorem acceptCommand_readData (w : Word) : (acceptCommand w s).readData = s.readData := rfl
@[simp] theorem acceptCommand_resets (w : Word) : (acceptCommand w s).resets = s.resets := rfl

@[simp] theorem discardWrite_bufSize : (discardWrite s).bufSize = s.bufSize := rfl
@[simp] theorem discardWrite_ctrl : (discardWrite s).ctrl = s.ctrl := rfl
@[simp] theorem discardWrite_base : (discardWrite s).base = s.base := rfl
@[simp] theorem discardWrite_len : (discardWrite s).len = s.len := rfl
@[simp] theorem discardWrite_result : (discardWrite s).result = s.result := rfl
@[simp] theorem discardWrite_payload : (discardWrite s).payload = s.payload := rfl
@[simp] theorem discardWrite_hdr0 : (discardWrite s).hdr0 = s.hdr0 := rfl
@[simp] theorem discardWrite_hdr1 : (discardWrite s).hdr1 = s.hdr1 := rfl
@[simp] theorem discardWrite_hdr2 : (discardWrite s).hdr2 = s.hdr2 := rfl
@[simp] theorem discardWrite_hdr3 : (discardWrite s).hdr3 = s.hdr3 := rfl
@[simp] theorem discardWrite_hdr4 : (discardWrite s).hdr4 = s.hdr4 := rfl
@[simp] theorem discardWrite_pend : (discardWrite s).pend = s.pend := rfl
@[simp] theorem discardWrite_buf : (discardWrite s).buf = s.buf := rfl
@[simp] theorem discardWrite_events : (discardWrite s).events = s.events := rfl
@[simp] theorem discardWrite_readData : (discardWrite s).readData = s.readData := rfl
@[simp] theorem discardWrite_resets : (discardWrite s).resets = s.resets := rfl

@[simp] theorem writeStatus_bufSize (d : Word) (st : Strobe) : (writeStatus d st s).bufSize = s.bufSize := rfl
@[simp] theorem writeStatus_ctrl (d : Word) (st : Strobe) : (writeStatus d st s).ctrl = s.ctrl := rfl
@[simp] theorem writeStatus_base (d : Word) (st : Strobe) : (writeStatus d st s).base = s.base := rfl
@[simp] theorem writeStatus_len (d : Word) (st : Strobe) : (writeStatus d st s).len = s.len := rfl
@[simp] theorem writeStatus_result (d : Word) (st : Strobe) : (writeStatus d st s).result = s.result := rfl
@[simp] theorem writeStatus_payload (d : Word) (st : Strobe) : (writeStatus d st s).payload = s.payload := rfl
@[simp] theorem writeStatus_hdr0 (d : Word) (st : Strobe) : (writeStatus d st s).hdr0 = s.hdr0 := rfl
@[simp] theorem writeStatus_hdr1 (d : Word) (st : Strobe) : (writeStatus d st s).hdr1 = s.hdr1 := rfl
@[simp] theorem writeStatus_hdr2 (d : Word) (st : Strobe) : (writeStatus d st s).hdr2 = s.hdr2 := rfl
@[simp] theorem writeStatus_hdr3 (d : Word) (st : Strobe) : (writeStatus d st s).hdr3 = s.hdr3 := rfl
@[simp] theorem writeStatus_hdr4 (d : Word) (st : Strobe) : (writeStatus d st s).hdr4 = s.hdr4 := rfl
@[simp] theorem writeStatus_pend (d : Word) (st : Strobe) : (writeStatus d st s).pend = s.pend := rfl
@[simp] theorem writeStatus_buf (d : Word) (st : Strobe) : (writeStatus d st s).buf = s.buf := rfl
@[simp] theorem writeStatus_events (d : Word) (st : Strobe) : (writeStatus d st s).events = s.events := rfl
@[simp] theorem writeStatus_readData (d : Word) (st : Strobe) : (writeStatus d st s).readData = s.readData := rfl
@[simp] theorem writeStatus_resets (d : Word) (st : Strobe) : (writeStatus d st s).resets = s.resets := rfl

@[simp] theorem writeWindow_bufSize (o : Nat) (d : Word) (st : Strobe) : (writeWindow s o d st).bufSize = s.bufSize := rfl
@[simp] theorem writeWindow_ctrl (o : Nat) (d : Word) (st : Strobe) : (writeWindow s o d st).ctrl = s.ctrl := rfl
@[simp] theorem writeWindow_status (o : Nat) (d : Word) (st : Strobe) : (writeWindow s o d st).status = s.status := rfl
@[simp] theorem writeWindow_base (o : Nat) (d : Word) (st : Strobe) : (writeWindow s o d st).base = s.base := rfl
@[simp] theorem writeWindow_len (o : Nat) (d : Word) (st : Strobe) : (writeWindow s o d st).len = s.len := rfl
@[simp] theorem writeWindow_result (o : Nat) (d : Word) (st : Strobe) : (writeWindow s o d st).result = s.result := rfl
@[simp] theorem writeWindow_payload (o : Nat) (d : Word) (st : Strobe) : (writeWindow s o d st).payload = s.payload := rfl
@[simp] theorem writeWindow_hdr0 (o : Nat) (d : Word) (st : Strobe) : (writeWindow s o d st).hdr0 = s.hdr0 := rfl
@[simp] theorem writeWindow_hdr1 (o : Nat) (d : Word) (st : Strobe) : (writeWindow s o d st).hdr1 = s.hdr1 := rfl
@[simp] theorem writeWindow_hdr2 (o : Nat) (d : Word) (st : Strobe) : (writeWindow s o d st).hdr2 = s.hdr2 := rfl
@[simp] theorem writeWindow_hdr3 (o : Nat) (d : Word) (st : Strobe) : (writeWindow s o d st).hdr3 = s.hdr3 := rfl
@[simp] theorem writeWindow_hdr4 (o : Nat) (d : Word) (st : Strobe) : (writeWindow s o d st).hdr4 = s.hdr4 := rfl
@[simp] theorem writeWindow_pend (o : Nat) (d : Word) (st : Strobe) : (writeWindow s o d st).pend = s.pend := rfl
@[simp] theorem writeWindow_events (o : Nat) (d : Word) (st : Strobe) : (writeWindow s o d st).events = s.events := rfl
@[simp] theorem writeWindow_readData (o : Nat) (d : Word) (st : Strobe) : (writeWindow s o d st).readData = s.readData := rfl
@[simp] theorem writeWindow_resets (o : Nat) (d : Word) (st : Strobe) : (writeWindow s o d st).resets = s.resets := rfl

@[simp] theorem encodeWrites_bufSize (h : List Byte) : (encodeWrites s h).bufSize = s.bufSize := rfl
@[simp] theorem encodeWrites_ctrl (h : List Byte) : (encodeWrites s h).ctrl = s.ctrl := rfl
@[simp] theorem encodeWrites_status (h : List Byte) : (encodeWrites s h).status = s.status := rfl
@[simp] theorem encodeWrites_base (h : List Byte) : (encodeWrites s h).base = s.base := rfl
@[simp] theorem encodeWrites_len (h : List Byte) : (encodeWrites s h).len = s.len := rfl
@[simp] theorem encodeWrites_hdr1 (h : List Byte) : (encodeWrites s h).hdr1 = s.hdr1 := rfl
@[simp] theorem encodeWrites_hdr3 (h : List Byte) : (encodeWrites s h).hdr3 = s.hdr3 := rfl
@[simp] theorem encodeWrites_hdr4 (h : List Byte) : (encodeWrites s h).hdr4 = s.hdr4 := rfl
@[simp] theorem encodeWrites_pend (h : List Byte) : (encodeWrites s h).pend = s.pend := rfl
@[simp] theorem encodeWrites_events (h : List Byte) : (encodeWrites s h).events = s.events := rfl
@[simp] theorem encodeWrites_readData (h : List Byte) : (encodeWrites s h).readData = s.readData := rfl
@[simp] theorem encodeWrites_resets (h : List Byte) : (encodeWrites s h).resets = s.resets := rfl

@[simp] theorem unpackFields_bufSize (h : List Byte) : (unpackFields s h).bufSize = s.bufSize := rfl
@[simp] theorem unpackFields_ctrl (h : List Byte) : (unpackFields s h).ctrl = s.ctrl := rfl
@[simp] theorem unpackFields_status (h : List Byte) : (unpackFields s h).status = s.status := rfl
@[simp] theorem unpackFields_base (h : List Byte) : (unpackFields s h).base = s.base := rfl
@[simp] theorem unpackFields_len (h : List Byte) : (unpackFields s h).len = s.len := rfl
@[simp] theorem unpackFields_result (h : List Byte) : (unpackFields s h).result = s.result := rfl
@[simp] theorem unpackFields_payload (h : List Byte) : (unpackFields s h).payload = s.payload := rfl
@[simp] theorem unpackFields_pend (h : List Byte) : (unpackFields s h).pend = s.pend := rfl
@[simp] theorem unpackFields_buf (h : List Byte) : (unpackFields s h).buf = s.buf := rfl
@[simp] theorem unpackFields_events (h : List Byte) : (unpackFields s h).events = s.events := rfl
@[simp] theorem unpackFields_readData (h : List Byte) : (unpackFields s h).readData = s.readData := rfl
@[simp] theorem unpackFields_resets (h : List Byte) : (unpackFields s h).resets = s.resets := rfl

@[simp] theorem writeChecks_bufSize (h : List Byte) : (writeChecks s h).bufSize = s.bufSize := rfl
@[simp] theorem writeChecks_ctrl (h : List Byte) : (writeChecks s h).ctrl = s.ctrl := rfl
@[simp] theorem writeChecks_base (h : List Byte) : (writeChecks s h).base = s.base := rfl
@[simp] theorem writeChecks_len (h : List Byte) : (writeChecks s h).len = s.len := rfl
@[simp] theorem writeChecks_result (h : List Byte) : (writeChecks s h).result = s.result := rfl
@[simp] theorem writeChecks_payload (h : List Byte) : (writeChecks s h).payload = s.payload := rfl
@[simp] theorem writeChecks_hdr0 (h : List Byte) : (writeChecks s h).hdr0 = s.hdr0 := rfl
@[simp] theorem writeChecks_hdr1 (h : List Byte) : (writeChecks s h).hdr1 = s.hdr1 := rfl
@[simp] theorem writeChecks_hdr2 (h : List Byte) : (writeChecks s h).hdr2 = s.hdr2 := rfl
@[simp] theorem writeChecks_hdr3 (h : List Byte) : (writeChecks s h).hdr3 = s.hdr3 := rfl
@[simp] theorem writeChecks_hdr4 (h : List Byte) : (writeChecks s h).hdr4 = s.hdr4 := rfl
@[simp] theorem writeChecks_pend (h : List Byte) : (writeChecks s h).pend = s.pend := rfl
@[simp] theorem writeChecks_buf (h : List Byte) : (writeChecks s h).buf = s.buf := rfl
@[simp] theorem writeChecks_events (h : List Byte) : (writeChecks s h).events = s.events := rfl
@[simp] theorem writeChecks_readData (h : List Byte) : (writeChecks s h).readData = s.readData := rfl
@[simp] theorem writeChecks_resets (h : List Byte) : (writeChecks s h).resets = s.resets := rfl

@[simp] theorem decodeWrites_bufSize (h : List Byte) : (decodeWrites s h).bufSize = s.bufSize := rfl
@[simp] theorem decodeWrites_ctrl (h : List Byte) : (decodeWrites s h).ctrl = s.ctrl := rfl
@[simp] theorem decodeWrites_base (h : List Byte) : (decodeWrites s h).base = s.base := rfl
@[simp] theorem decodeWrites_len (h : List Byte) : (decodeWrites s h).len = s.len := rfl
@[simp] theorem decodeWrites_pend (h : List Byte) : (decodeWrites s h).pend = s.pend := rfl
@[simp] theorem decodeWrites_buf (h : List Byte) : (decodeWrites s h).buf = s.buf := rfl
@[simp] theorem decodeWrites_events (h : List Byte) : (decodeWrites s h).events = s.events := rfl
@[simp] theorem decodeWrites_readData (h : List Byte) : (decodeWrites s h).readData = s.readData := rfl
@[simp] theorem decodeWrites_resets (h : List Byte) : (decodeWrites s h).resets = s.resets := rfl

@[simp] theorem hostRead_bufSize (a : HostAddr) : (hostRead a s).bufSize = s.bufSize := rfl
@[simp] theorem hostRead_ctrl (a : HostAddr) : (hostRead a s).ctrl = s.ctrl := rfl
@[simp] theorem hostRead_status (a : HostAddr) : (hostRead a s).status = s.status := rfl
@[simp] theorem hostRead_base (a : HostAddr) : (hostRead a s).base = s.base := rfl
@[simp] theorem hostRead_len (a : HostAddr) : (hostRead a s).len = s.len := rfl
@[simp] theorem hostRead_result (a : HostAddr) : (hostRead a s).result = s.result := rfl
@[simp] theorem hostRead_payload (a : HostAddr) : (hostRead a s).payload = s.payload := rfl
@[simp] theorem hostRead_hdr0 (a : HostAddr) : (hostRead a s).hdr0 = s.hdr0 := rfl
@[simp] theorem hostRead_hdr1 (a : HostAddr) : (hostRead a s).hdr1 = s.hdr1 := rfl
@[simp] theorem hostRead_hdr2 (a : HostAddr) : (hostRead a s).hdr2 = s.hdr2 := rfl
@[simp] theorem hostRead_hdr3 (a : HostAddr) : (hostRead a s).hdr3 = s.hdr3 := rfl
@[simp] theorem hostRead_hdr4 (a : HostAddr) : (hostRead a s).hdr4 = s.hdr4 := rfl
@[simp] theorem hostRead_pend (a : HostAddr) : (hostRead a s).pend = s.pend := rfl
@[simp] theorem hostRead_buf (a : HostAddr) : (hostRead a s).buf = s.buf := rfl
@[simp] theorem hostRead_events (a : HostAddr) : (hostRead a s).events = s.events := rfl
@[simp] theorem hostRead_resets (a : HostAddr) : (hostRead a s).resets = s.resets := rfl

@[simp] theorem complete_pend : (complete s).pend = none := rfl
@[simp] theorem raiseError_pend (e : CmdError) : (raiseError e s).pend = none := rfl
@[simp] theorem succeed_pend : (succeed s).pend = none := rfl
@[simp] theorem acceptCommand_pend (w : Word) : (acceptCommand w s).pend = some w := rfl
@[simp] theorem writeFlag_status (i : Nat) (b : Bool) : (writeFlag i b s).status =
      setBit s.status i b := rfl
@[simp] theorem writeErr_status (c : BitVec 4) : (writeErr c s).status = setErr s.status c := rfl
@[simp] theorem hostRead_readData (a : HostAddr) : (hostRead a s).readData = busRead s a := rfl
@[simp] theorem unpackFields_hdr0 (h : List Byte) : (unpackFields s h).hdr0 = wordAt h 0 := rfl
@[simp] theorem unpackFields_hdr1 (h : List Byte) : (unpackFields s h).hdr1 = wordAt h 1 := rfl
@[simp] theorem unpackFields_hdr2 (h : List Byte) : (unpackFields s h).hdr2 = wordAt h 2 := rfl
@[simp] theorem unpackFields_hdr3 (h : List Byte) : (unpackFields s h).hdr3 = wordAt h 3 := rfl
@[simp] theorem unpackFields_hdr4 (h : List Byte) : (unpackFields s h).hdr4 = wordAt h 4 := rfl
@[simp] theorem encodeWrites_buf (h : List Byte) : (encodeWrites s h).buf =
      s.buf.writeList s.baseOff (putChecksum h (~~~onesSum h)) := rfl
@[simp] theorem encodeWrites_hdr0 (h : List Byte) : (encodeWrites s h).hdr0 =
      setVer s.hdr0 4#4 := rfl
@[simp] theorem encodeWrites_hdr2 (h : List Byte) : (encodeWrites s h).hdr2 =
      setChecksumField s.hdr2 (~~~onesSum h) := rfl
@[simp] theorem encodeWrites_result (h : List Byte) : (encodeWrites s h).result =
      resultWord (onesSum h) := rfl
@[simp] theorem encodeWrites_payload (h : List Byte) : (encodeWrites s h).payload =
      payloadWord (s.tlenField.toNat - s.headerBytes) s.headerBytes := rfl
@[simp] theorem decodeWrites_hdr0 (h : List Byte) : (decodeWrites s h).hdr0 = wordAt h 0 := rfl
@[simp] theorem decodeWrites_hdr1 (h : List Byte) : (decodeWrites s h).hdr1 = wordAt h 1 := rfl
@[simp] theorem decodeWrites_hdr2 (h : List Byte) : (decodeWrites s h).hdr2 = wordAt h 2 := rfl
@[simp] theorem decodeWrites_hdr3 (h : List Byte) : (decodeWrites s h).hdr3 = wordAt h 3 := rfl
@[simp] theorem decodeWrites_hdr4 (h : List Byte) : (decodeWrites s h).hdr4 = wordAt h 4 := rfl
@[simp] theorem decodeWrites_status (h : List Byte) : (decodeWrites s h).status =
      (writeChecks (unpackFields s h) h).status := rfl
@[simp] theorem decodeWrites_result (h : List Byte) : (decodeWrites s h).result =
      resultWord (onesSum (headerImage h)) := rfl
@[simp] theorem decodeWrites_payload (h : List Byte) : (decodeWrites s h).payload =
      payloadWord (payloadLength (beHalf (byteAt h 2) (byteAt h 3)).toNat s.lenBytes h.length) h.length := rfl

end Sys2Proof.Machine
end

