-- ==== Sys2Proof/Laws/Flags.lean ====
section
/-! SUPPORT. What writing a field of STATUS does, bit by bit, and the STATUS word that acceptance,
completion and an error leave. -/

namespace Sys2Proof.Machine

/-- A bit write changes that bit alone. -/
@[simp] theorem setBit_getLsbD (w : Word) (i j : Nat) (b : Bool) :
    (setBit w i b).getLsbD j = if i = j ∧ j < 32 then b else w.getLsbD j := by
  unfold setBit
  by_cases hj : j < 32
  · by_cases h : i = j
    · subst h
      cases b <;> simp [hj]
    · have h' : ¬ j = i := fun e => h e.symm
      cases b <;> simp [hj, h, h']
  · cases b <;> simp [hj, BitVec.getLsbD_of_ge w j (by omega)]
    omega

/-- An ERR write changes bits 7:4 alone. -/
@[simp] theorem setErr_getLsbD (w : Word) (c : BitVec 4) (j : Nat) :
    (setErr w c).getLsbD j = if 4 ≤ j ∧ j < 8 then c.getLsbD (j - 4) else w.getLsbD j := by
  unfold setErr
  simp only [BitVec.getLsbD_append, BitVec.getLsbD_extractLsb']
  by_cases h4 : j < 4
  · simp [h4]
  · by_cases h8 : j < 8
    · have : j - 4 < 4 := by omega
      simp [h4, h8, this]
    · have h1 : ¬ (j - 4 < 4) := by omega
      have h2 : 8 + (j - 4 - 4) = j := by omega
      simp only [h4, h1, h8, if_false, h2, and_false]
      by_cases h32 : j < 32
      · have : j - 4 - 4 < 24 := by omega
        simp [this]
      · simp [BitVec.getLsbD_of_ge w j (by omega)]

/-- The ERR field after an ERR write. -/
@[simp] theorem setErr_extract (w : Word) (c : BitVec 4) : (setErr w c).extractLsb' 4 4 = c := by
  ext j hj
  have : 4 + j < 8 := by omega
  simp [BitVec.getElem_extractLsb', this, hj]

/-- Bit by bit, completion clears BUSY and sets DONE. -/
theorem complete_status_getLsbD (s : State) (j : Nat) :
    (complete s).status.getLsbD j =
      if j = 0 then false else if j = 1 then true else s.status.getLsbD j := by
  simp only [complete, writeFlag, setBit_getLsbD]
  rcases j with _ | _ | j <;> simp

/-- Bit by bit, an error leaves its code in ERR and completes. -/
theorem raiseError_status_getLsbD (e : CmdError) (s : State) (j : Nat) :
    (raiseError e s).status.getLsbD j =
      if j = 0 then false else if j = 1 then true
      else if 4 ≤ j ∧ j < 8 then e.code.getLsbD (j - 4) else s.status.getLsbD j := by
  simp [raiseError, complete_status_getLsbD]

/-- Bit by bit, a success leaves 0 in ERR and completes. -/
theorem succeed_status_getLsbD (s : State) (j : Nat) :
    (succeed s).status.getLsbD j =
      if j = 0 then false else if j = 1 then true
      else if 4 ≤ j ∧ j < 8 then false else s.status.getLsbD j := by
  simp [succeed, complete_status_getLsbD]

/-- Bit by bit, acceptance sets BUSY and clears DONE, ERR and the four check flags. -/
theorem acceptCommand_status_getLsbD (w : Word) (s : State) (j : Nat) :
    (acceptCommand w s).status.getLsbD j =
      if j = 0 then true else if j = 1 then false
      else if 4 ≤ j ∧ j < 12 then false else s.status.getLsbD j := by
  simp only [acceptCommand, writeFlag, writeErr, setBit_getLsbD, setErr_getLsbD]
  by_cases h : j < 12
  · interval_cases j <;> simp
  · have h0 : j ≠ 0 := by omega
    have h1 : j ≠ 1 := by omega
    have : ∀ k, k < 12 → ¬ (k = j ∧ j < 32) := fun k hk ⟨e, _⟩ => by omega
    have h8 : ¬ j < 8 := by omega
    simp [this, h0, h1, h, h8]

/-- Bit by bit, a discarded write sets WBUSY alone. -/
theorem discardWrite_status_getLsbD (s : State) (j : Nat) :
    (discardWrite s).status.getLsbD j = if j = 12 then true else s.status.getLsbD j := by
  simp only [discardWrite, writeFlag, setBit_getLsbD]
  by_cases h : j = 12
  · simp [h]
  · have : ¬ 12 = j := fun e => h e.symm
    simp [h, this]

/-- Bit by bit, a host write to STATUS can only clear DONE and WBUSY. -/
theorem writeStatus_status_getLsbD (d : Word) (st : Strobe) (s : State) (j : Nat) :
    (writeStatus d st s).status.getLsbD j =
      if j = 1 then s.status.getLsbD 1 && !(d.getLsbD 1 && st.getLsbD 0)
      else if j = 12 then s.status.getLsbD 12 && !(d.getLsbD 12 && st.getLsbD 1)
      else s.status.getLsbD j := by
  simp only [writeStatus, writeFlag, setBit_getLsbD, State.doneFlag, State.wbusyFlag]
  by_cases h1 : j = 1
  · simp [h1]
  · by_cases h12 : j = 12
    · simp [h12]
    · have e1 : ¬ 1 = j := fun e => h1 e.symm
      have e12 : ¬ 12 = j := fun e => h12 e.symm
      simp [h1, h12, e1, e12]

/-- Bit by bit, the checks of DECODE write bits 8 to 11 alone. -/
theorem writeChecks_status_getLsbD (s : State) (h : List Byte) (j : Nat) :
    (writeChecks s h).status.getLsbD j =
      (let cb := csumBad (checksum (headerImage h)) (beHalf (byteAt h 10) (byteAt h 11))
       let vb := verBad ((byteAt h 0).extractLsb' 4 4)
       let tm := tlenMismatch (beHalf (byteAt h 2) (byteAt h 3)) s.lenField
       if j = 8 then cb else if j = 9 then vb else if j = 10 then tm
       else if j = 11 then acceptGate s.strict cb vb tm else s.status.getLsbD j) := by
  simp only [writeChecks, writeFlag, setBit_getLsbD]
  by_cases h8 : j = 8
  · simp [h8]
  by_cases h9 : j = 9
  · simp [h9]
  by_cases h10 : j = 10
  · simp [h10]
  by_cases h11 : j = 11
  · simp [h11]
  have e8 : ¬ 8 = j := fun e => h8 e.symm
  have e9 : ¬ 9 = j := fun e => h9 e.symm
  have e10 : ¬ 10 = j := fun e => h10 e.symm
  have e11 : ¬ 11 = j := fun e => h11 e.symm
  simp [h8, h9, h10, h11, e8, e9, e10, e11]

end Sys2Proof.Machine
end

