-- ==== Sys2Proof/Laws/Memory.lean ====
section
/-! SUPPORT. What the buffer operations do: read after write, what a write leaves alone, the
canonical form, and regions. -/

namespace Sys2Proof.Machine

/-- One byte after a write. -/
@[simp] theorem Memory.byte_write (m : Memory) (a b : Nat) (v : Byte) :
    (m.write a v).byte b = if b = a then some v else m.byte b := by
  induction m with
  | nil => simp [Memory.write, Memory.byte, eq_comm]
  | cons c m ih =>
    obtain ⟨k, x⟩ := c
    unfold Memory.write
    by_cases h1 : a < k
    · by_cases h3 : b = a
      · simp [h1, Memory.byte, h3]
      · simp [h1, Memory.byte, Ne.symm h3, h3]
    · by_cases h2 : a = k
      · subst h2
        by_cases h3 : b = a
        · simp [Memory.byte, h3]
        · simp [Memory.byte, Ne.symm h3, h3]
      · by_cases h3 : b = a
        · subst h3
          have : ¬ k = b := fun e => h2 e.symm
          simp [h1, h2, Memory.byte, this, ih]
        · simp [h1, h2, Memory.byte, ih, h3]

/-- The canonical form, said of the tail. -/
theorem Memory.wf_cons (a : Nat) (x : Byte) (m : Memory) :
    Memory.wf ((a, x) :: m) = true ↔ m.wf = true ∧ ∀ c ∈ m, a < c.1 := by
  induction m generalizing a x with
  | nil => simp [Memory.wf]
  | cons c m ih =>
    obtain ⟨b, y⟩ := c
    simp only [Memory.wf, Bool.and_eq_true, decide_eq_true_eq, List.mem_cons, forall_eq_or_imp]
    rw [ih]
    constructor
    · rintro ⟨h, hw, hb⟩
      exact ⟨⟨hw, hb⟩, h, fun c hc => lt_trans h (hb c hc)⟩
    · rintro ⟨⟨hw, hb⟩, h, _⟩
      exact ⟨h, hw, hb⟩

/-- A cell of the buffer after a write is the written one or an old one. -/
theorem Memory.mem_write {m : Memory} {a : Nat} {v : Byte} {c : Host.Cell}
    (h : c ∈ m.write a v) : c = (a, v) ∨ c ∈ m := by
  induction m with
  | nil => simpa [Memory.write] using h
  | cons d m ih =>
    obtain ⟨k, x⟩ := d
    unfold Memory.write at h
    split_ifs at h with h1 h2
    · simpa using h
    · rcases List.mem_cons.1 h with h | h
      · exact .inl h
      · exact .inr (List.mem_cons_of_mem _ h)
    · rcases List.mem_cons.1 h with h | h
      · exact .inr (by simp [h])
      · exact (ih h).imp_right (List.mem_cons_of_mem _)

/-- A write keeps the canonical form. -/
theorem Memory.wf_write {m : Memory} (h : m.wf = true) (a : Nat) (v : Byte) :
    (m.write a v).wf = true := by
  induction m with
  | nil => simp [Memory.write, Memory.wf]
  | cons d m ih =>
    obtain ⟨k, x⟩ := d
    have hk := (Memory.wf_cons k x m).1 h
    unfold Memory.write
    split_ifs with h1 h2
    · refine (Memory.wf_cons _ _ _).2 ⟨h, fun c hc => ?_⟩
      rcases List.mem_cons.1 hc with rfl | hc
      · exact h1
      · exact lt_trans h1 (hk.2 c hc)
    · subst h2
      exact (Memory.wf_cons _ _ _).2 hk
    · refine (Memory.wf_cons _ _ _).2 ⟨ih hk.1, fun c hc => ?_⟩
      rcases Memory.mem_write hc with rfl | hc
      · show k < a
        omega
      · exact hk.2 c hc

/-- A write below a bound keeps every offset below it. -/
theorem Memory.below_write {m : Memory} {n : Nat} (h : m.below n) {a : Nat} (ha : a < n) (v : Byte) :
    (m.write a v).below n := fun _ hc =>
  (Memory.mem_write hc).elim (fun e => e ▸ ha) (h _)

/-- One byte after a sequence is written: the sequence's byte inside it, the old byte outside. -/
theorem Memory.byte_writeList (m : Memory) (a : Nat) (bs : List Byte) (o : Nat) :
    (m.writeList a bs).byte o =
      if a ≤ o ∧ o < a + bs.length then bs[o - a]? else m.byte o := by
  induction bs generalizing m a with
  | nil =>
    have : ¬ (a ≤ o ∧ o < a) := by omega
    simp [Memory.writeList, this]
  | cons b bs ih =>
    rw [Memory.writeList, ih, Memory.byte_write]
    simp only [List.length_cons]
    by_cases h0 : o = a
    · subst h0
      simp
    · by_cases h1 : a + 1 ≤ o ∧ o < a + 1 + bs.length
      · have h2 : a ≤ o ∧ o < a + (bs.length + 1) := by omega
        obtain ⟨k, hk⟩ : ∃ k, o - a = k + 1 := ⟨o - a - 1, by omega⟩
        have hk' : o - (a + 1) = k := by omega
        simp [h1, h2, hk, hk']
      · have h2 : ¬ (a ≤ o ∧ o < a + (bs.length + 1)) := by omega
        rw [if_neg h1, if_neg h2, if_neg h0]

/-- Writing a sequence keeps the canonical form. -/
theorem Memory.wf_writeList {m : Memory} (h : m.wf = true) (a : Nat) (bs : List Byte) :
    (m.writeList a bs).wf = true := by
  induction bs generalizing m a with
  | nil => exact h
  | cons b bs ih => exact ih (Memory.wf_write h a b) (a + 1)

/-- Writing a sequence below a bound keeps every offset below it. -/
theorem Memory.below_writeList {m : Memory} {n : Nat} (h : m.below n) {a : Nat} {bs : List Byte}
    (hb : a + bs.length ≤ n) : (m.writeList a bs).below n := by
  induction bs generalizing m a with
  | nil => exact h
  | cons b bs ih =>
    simp only [List.length_cons] at hb
    exact ih (Memory.below_write h (by omega) b) (by omega)

/-- The buffer holds a sequence that has just been written. -/
theorem Memory.holds_writeList (m : Memory) (a : Nat) (bs : List Byte) :
    (m.writeList a bs).holds a bs := fun k hk => by
  rw [Memory.byte_writeList]
  simp [hk]

/-- A region read gives exactly the bytes the buffer holds there. -/
theorem Memory.readRange_eq_ok {m : Memory} {a n : Nat} {bs : List Byte} :
    m.readRange a n = .ok bs ↔ bs.length = n ∧ m.holds a bs := by
  induction n generalizing a bs with
  | zero =>
    simp only [Memory.readRange, Except.ok.injEq]
    constructor
    · rintro rfl
      exact ⟨rfl, fun k hk => absurd hk (by simp)⟩
    · rintro ⟨h, _⟩
      exact (List.eq_nil_of_length_eq_zero h).symm
  | succ n ih =>
    rw [Memory.readRange]
    constructor
    · intro h
      cases hl : m.byte a with
      | none => simp [hl] at h
      | some b =>
        cases hr : m.readRange (a + 1) n with
        | error o => simp [hl, hr] at h
        | ok cs =>
          simp only [hl, hr, Except.ok.injEq] at h
          subst h
          obtain ⟨hlen, hh⟩ := ih.1 hr
          refine ⟨by simp [hlen], fun k hk => ?_⟩
          rcases k with _ | k
          · simpa using hl
          · have := hh k (by simpa using hk)
            rw [show a + (k + 1) = a + 1 + k by omega]
            simpa using this
    · rintro ⟨hlen, hh⟩
      cases bs with
      | nil => simp at hlen
      | cons b cs =>
        have h0 : m.byte a = some b := by simpa using hh 0 (by simp)
        have hr : m.readRange (a + 1) n = .ok cs := by
          refine ih.2 ⟨by simpa using hlen, fun k hk => ?_⟩
          have := hh (k + 1) (by simpa using hk)
          rw [show a + (k + 1) = a + 1 + k by omega] at this
          simpa using this
        simp [h0, hr]

/-- A region read that fails names the first unwritten offset of the region. -/
theorem Memory.readRange_eq_error {m : Memory} {a n o : Nat} (h : m.readRange a n = .error o) :
    a ≤ o ∧ o < a + n ∧ m.byte o = none ∧ ∀ k, a ≤ k → k < o → (m.byte k).isSome := by
  induction n generalizing a with
  | zero => simp [Memory.readRange] at h
  | succ n ih =>
    rw [Memory.readRange] at h
    cases hl : m.byte a with
    | none =>
      simp only [hl, Except.error.injEq] at h
      subst h
      exact ⟨le_refl _, by omega, hl, fun k h1 h2 => by omega⟩
    | some b =>
      cases hr : m.readRange (a + 1) n with
      | ok cs => simp [hl, hr] at h
      | error o' =>
        simp only [hl, hr, Except.error.injEq] at h
        subst h
        obtain ⟨h1, h2, h3, h4⟩ := ih hr
        refine ⟨by omega, by omega, h3, fun k hk hko => ?_⟩
        by_cases hka : k = a
        · simp [hka, hl]
        · exact h4 k (by omega) hko

/-- A region with an unwritten byte cannot be read. -/
theorem Memory.readRange_of_hasUnwritten {m : Memory} {a n : Nat} (h : m.hasUnwritten a n) :
    ∃ o, m.readRange a n = .error o := by
  cases hr : m.readRange a n with
  | error o => exact ⟨o, rfl⟩
  | ok bs =>
    obtain ⟨k, hk, hn⟩ := h
    obtain ⟨hlen, hh⟩ := Memory.readRange_eq_ok.1 hr
    have := hh k (by omega)
    rw [hn, List.getElem?_eq_getElem (by omega)] at this
    cases this

/-- Two buffers in canonical form with the same bytes are equal. -/
theorem Memory.ext_of_wf {m m' : Memory} (h : m.wf = true) (h' : m'.wf = true)
    (e : ∀ a, m.byte a = m'.byte a) : m = m' := by
  induction m generalizing m' with
  | nil =>
    cases m' with
    | nil => rfl
    | cons c m' => simpa [Memory.byte] using e c.1
  | cons c m ih =>
    obtain ⟨k, x⟩ := c
    cases m' with
    | nil => simpa [Memory.byte] using e k
    | cons c' m' =>
      obtain ⟨k', x'⟩ := c'
      obtain ⟨hw, hk⟩ := (Memory.wf_cons _ _ _).1 h
      obtain ⟨hw', hk'⟩ := (Memory.wf_cons _ _ _).1 h'
      have out : ∀ (l : Memory) (a : Nat), (∀ c ∈ l, a < c.1) → l.byte a = none := by
        intro l a hl
        induction l with
        | nil => rfl
        | cons d l ih' =>
          obtain ⟨q, y⟩ := d
          have hq : a < q := hl (q, y) (by simp)
          rw [Memory.byte, if_neg (by omega)]
          exact ih' fun c hc => hl c (by simp [hc])
      have hkk : k = k' := by
        rcases lt_trichotomy k k' with h1 | h1 | h1
        · have := e k
          rw [Memory.byte, if_pos rfl, Memory.byte, if_neg (by omega),
            out m' k fun c hc => lt_trans h1 (hk' c hc)] at this
          cases this
        · exact h1
        · have := e k'
          rw [Memory.byte, if_neg (by omega), Memory.byte, if_pos rfl,
            out m k' fun c hc => lt_trans h1 (hk c hc)] at this
          cases this
      subst hkk
      have hx : x = x' := by simpa [Memory.byte] using e k
      subst hx
      congr 1
      refine ih hw hw' fun a => ?_
      by_cases ha : k = a
      · subst ha
        rw [out m k hk, out m' k hk']
      · simpa [Memory.byte, ha] using e a

end Sys2Proof.Machine
end

