-- ==== Sys2Proof/Laws/Bus.lean ====
section
/-! SUPPORT. What a host write can do, said once. -/

namespace Sys2Proof.Machine

/-- One lane of a window write, byte by byte. -/
theorem byte_writeLane (n : Nat) (on : Bool) (o : Nat) (b : Byte) (m : Memory) (a : Nat) :
    (writeLane n on o b m).byte a =
      if on = true ∧ o < n ∧ a = o then some b else m.byte a := by
  unfold writeLane
  cases on
  · simp
  · by_cases h : o < n <;> simp [h]

/-- One lane of a window write keeps the canonical form. -/
theorem wf_writeLane {m : Memory} (h : m.wf = true) (n : Nat) (on : Bool) (o : Nat) (b : Byte) :
    (writeLane n on o b m).wf = true := by
  unfold writeLane
  split_ifs
  · exact Memory.wf_write h o b
  · exact h

/-- One lane of a window write stays inside the buffer (20_memory.md R42). -/
theorem below_writeLane {m : Memory} {n : Nat} (h : m.below n) (on : Bool) (o : Nat) (b : Byte) :
    (writeLane n on o b m).below n := by
  unfold writeLane
  split_ifs with ho
  · exact Memory.below_write h (by simp at ho; exact ho.2) b
  · exact h

/-- A window write keeps the canonical form and stays inside the buffer. -/
theorem writeWindow_wf_below {s : State} (h : s.buf.wf = true) (hb : s.buf.below s.bufBytes)
    (o : Nat) (d : Word) (st : Strobe) :
    (writeWindow s o d st).buf.wf = true ∧ (writeWindow s o d st).buf.below s.bufBytes := by
  unfold writeWindow
  exact ⟨wf_writeLane (wf_writeLane (wf_writeLane (wf_writeLane h _ _ _ _) _ _ _ _) _ _ _ _) _ _ _ _,
    below_writeLane (below_writeLane (below_writeLane (below_writeLane hb _ _ _) _ _ _) _ _ _) _ _ _⟩

/-- A write of the busy block is discarded, and one of the idle block is performed
(10_state.md R26). -/
theorem unlessBusy_busy {s p : State} (h : s.busyFlag = true) : unlessBusy s p = discardWrite s := by
  simp [unlessBusy, h]

theorem unlessBusy_idle {s p : State} (h : s.busyFlag = false) : unlessBusy s p = p := by
  simp [unlessBusy, h]

/-- A write with no strobe has no effect at all (10_state.md R39). -/
@[simp] theorem busWrite_zero_strobe (s : State) (a : HostAddr) (d : Word) :
    busWrite s a d 0#4 = s := by
  simp [busWrite]

/-- What a write can do while the engine is busy (R26): nothing, set WBUSY, or act on STATUS. -/
theorem busWrite_busy_cases {s : State} (h : s.busyFlag = true) (a : HostAddr) (d : Word)
    (st : Strobe) :
    busWrite s a d st = s ∨ busWrite s a d st = discardWrite s ∨
      busWrite s a d st = writeStatus d st s := by
  unfold busWrite
  split_ifs
  · exact .inl rfl
  · exact .inr (.inl (unlessBusy_busy h))
  · cases regAt a with
    | none => exact .inl rfl
    | some r => cases r <;> simp [writeReg, unlessBusy_busy h]

/-- What a write can do to the idle block: nothing, act on STATUS, accept a command, write one
register, or write the buffer window. -/
theorem busWrite_idle_cases {s : State} (h : s.busyFlag = false) (a : HostAddr) (d : Word)
    (st : Strobe) :
    busWrite s a d st = s ∨ busWrite s a d st = writeStatus d st s ∨
    busWrite s a d st = acceptCommand (d &&& strobeMask st) s ∨
    busWrite s a d st = writeWindow s (wordOffset a) d st ∨
    busWrite s a d st = { s with ctrl := strobedWrite s.ctrl d 0x00000003#32 st } ∨
    busWrite s a d st = { s with base := strobedWrite s.base d 0x0000FFFF#32 st } ∨
    busWrite s a d st = { s with len := strobedWrite s.len d 0x0000FFFF#32 st } ∨
    busWrite s a d st = { s with hdr0 := strobedWrite s.hdr0 d 0xFFFFFFFF#32 st } ∨
    busWrite s a d st = { s with hdr1 := strobedWrite s.hdr1 d 0xFFFFFFFF#32 st } ∨
    busWrite s a d st = { s with hdr2 := strobedWrite s.hdr2 d 0xFFFFFFFF#32 st } ∨
    busWrite s a d st = { s with hdr3 := strobedWrite s.hdr3 d 0xFFFFFFFF#32 st } ∨
    busWrite s a d st = { s with hdr4 := strobedWrite s.hdr4 d 0xFFFFFFFF#32 st } := by
  unfold busWrite
  split_ifs
  · exact .inl rfl
  · simp [unlessBusy_idle h]
  · cases regAt a with
    | none => exact .inl rfl
    | some r => cases r <;> simp [writeReg, unlessBusy_idle h]

/-- A read does not look at the schedule. -/
@[simp] theorem busRead_events (s : State) (es : List Event) (a : HostAddr) :
    busRead { s with events := es } a = busRead s a := by
  unfold busRead
  split_ifs
  · rfl
  · cases regAt a with
    | none => rfl
    | some r => cases r <;> rfl

/-- A write does not look at the schedule. -/
theorem busWrite_events (s : State) (es : List Event) (a : HostAddr) (d : Word) (st : Strobe) :
    busWrite { s with events := es } a d st = { busWrite s a d st with events := es } := by
  unfold busWrite
  cases hb : s.busyFlag with
  | false =>
    have hb' : ({ s with events := es } : State).busyFlag = false := hb
    split_ifs
    · rfl
    · simp only [unlessBusy_idle hb, unlessBusy_idle hb']
      rfl
    · cases regAt a with
      | none => rfl
      | some r => cases r <;> simp only [writeReg, unlessBusy_idle hb, unlessBusy_idle hb'] <;> rfl
  | true =>
    have hb' : ({ s with events := es } : State).busyFlag = true := hb
    split_ifs
    · rfl
    · simp only [unlessBusy_busy hb, unlessBusy_busy hb']
      rfl
    · cases regAt a with
      | none => rfl
      | some r => cases r <;> simp only [writeReg, unlessBusy_busy hb, unlessBusy_busy hb'] <;> rfl

/-- A strobed register write, bit by bit, within a byte lane (R39). -/
theorem strobeMask_getLsbD (st : Strobe) (j : Nat) :
    (strobeMask st).getLsbD j = (decide (j < 32) && st.getLsbD (j / 8)) := by
  have lane : ∀ (b : Bool) (i : Nat), (laneMask b).getLsbD i = (decide (i < 8) && b) := by
    intro b i
    by_cases hi : i < 8
    · cases b
      · simp [laneMask]
      · interval_cases i <;> rfl
    · rw [BitVec.getLsbD_of_ge _ _ (by omega)]
      simp [hi]
  unfold strobeMask
  simp only [BitVec.getLsbD_append, lane]
  by_cases hj : j < 32
  · interval_cases j <;> simp
  · have h1 : ¬ j < 8 := by omega
    have h2 : ¬ j - 8 < 8 := by omega
    have h3 : ¬ j - 8 - 8 < 8 := by omega
    have h4 : ¬ j - 8 - 8 - 8 < 8 := by omega
    simp only [h1, h2, h3, h4, hj]
    simp

theorem strobedWrite_getLsbD (old d w : Word) (st : Strobe) (j : Nat) (hj : j < 32) :
    (strobedWrite old d w st).getLsbD j =
      if st.getLsbD (j / 8) then d.getLsbD j && w.getLsbD j else old.getLsbD j := by
  unfold strobedWrite
  simp only [BitVec.getLsbD_or, BitVec.getLsbD_and, BitVec.getLsbD_not, strobeMask_getLsbD]
  cases st.getLsbD (j / 8) <;> simp [hj]

/-- A strobed write to a named register is `writeReg` (20_memory.md R48). -/
theorem busWrite_reg {s : State} {a : HostAddr} {d : Word} {st : Strobe} {r : Reg} (h1 : st ≠ 0#4)
    (hw : inWindow a = false) (hr : regAt a = some r) : busWrite s a d st = writeReg s r d st := by
  simp [busWrite, h1, hw, hr]

/-- A write to a reserved address does nothing (R54). -/
theorem busWrite_reserved {s : State} {a : HostAddr} {d : Word} {st : Strobe}
    (hw : inWindow a = false) (hr : regAt a = none) : busWrite s a d st = s := by
  by_cases h1 : st = 0#4 <;> simp [busWrite, h1, hw, hr]

/-- A strobed write to the window is `writeWindow`, discarded while busy (R48). -/
theorem busWrite_window {s : State} {a : HostAddr} {d : Word} {st : Strobe} (h1 : st ≠ 0#4)
    (hw : inWindow a = true) :
    busWrite s a d st = unlessBusy s (writeWindow s (wordOffset a) d st) := by
  simp [busWrite, h1, hw]

/-- A read of a named register is `readReg` (R49). -/
theorem busRead_reg {s : State} {a : HostAddr} {r : Reg} (hw : inWindow a = false)
    (hr : regAt a = some r) : busRead s a = readReg s r := by
  simp [busRead, hw, hr]

/-- A read of a reserved address is 0 (R54). -/
theorem busRead_reserved {s : State} {a : HostAddr} (hw : inWindow a = false)
    (hr : regAt a = none) : busRead s a = 0#32 := by
  simp [busRead, hw, hr]

/-- A read does not look at the schedule or at the data of an earlier read. -/
theorem busRead_readData (s : State) (es : List Event) (x : Word) (a : HostAddr) :
    busRead { s with events := es, readData := x } a = busRead s a := by
  unfold busRead
  split_ifs
  · rfl
  · cases regAt a with
    | none => rfl
    | some r => cases r <;> rfl

/-- No register stands at or past 0x38 (10_state.md R15). -/
theorem regAt_reserved {a : HostAddr} (h : 0x38 ≤ wordOffset a) : regAt a = none := by
  unfold regAt
  split <;> first | omega | rfl

/-- A window write, byte by byte (20_memory.md R43, R48). -/
theorem byte_writeWindow (s : State) (o : Nat) (d : Word) (st : Strobe) (x : Nat) :
    (writeWindow s o d st).buf.byte x =
      if st.getLsbD 3 = true ∧ o < s.bufBytes ∧ x = o then some (d.extractLsb' 24 8)
      else if st.getLsbD 2 = true ∧ o + 1 < s.bufBytes ∧ x = o + 1 then some (d.extractLsb' 16 8)
      else if st.getLsbD 1 = true ∧ o + 2 < s.bufBytes ∧ x = o + 2 then some (d.extractLsb' 8 8)
      else if st.getLsbD 0 = true ∧ o + 3 < s.bufBytes ∧ x = o + 3 then some (d.extractLsb' 0 8)
      else s.buf.byte x := by
  unfold writeWindow
  simp only [byte_writeLane]

/-- BUF_BYTES is a multiple of 4 between 64 and 65536 (00_scope.md R6). -/
theorem bufBytes_bounds (s : State) :
    s.bufBytes % 4 = 0 ∧ 64 ≤ s.bufBytes ∧ s.bufBytes ≤ 65536 := by
  unfold State.bufBytes
  generalize s.bufSize = k
  revert k
  decide

end Sys2Proof.Machine
end

