-- ==== Sys2Proof/Laws/Checksum.lean ====
section
/-! SUPPORT. Small laws of the checksum engine and of the header byte sequences. -/

namespace Sys2Proof.Machine

/-- One fold, as a number. -/
theorem foldOnce_toNat (acc : Word) : (foldOnce acc).toNat = foldNat acc.toNat := by
  have h1 : (acc.extractLsb' 16 16).toNat = acc.toNat / 65536 := by
    simp [BitVec.extractLsb'_toNat, Nat.shiftRight_eq_div_pow]
    have := acc.isLt
    omega
  have h2 : (acc.extractLsb' 0 16).toNat = acc.toNat % 65536 := by
    simp [BitVec.extractLsb'_toNat]
  have := acc.isLt
  simp only [foldOnce, BitVec.toNat_add, BitVec.toNat_setWidth, h1, h2, foldNat]
  omega

/-- The high half of an accumulator is 0 exactly when its value has 16 bits. -/
theorem high_eq_zero_iff (acc : Word) : acc.extractLsb' 16 16 = 0#16 ↔ acc.toNat < 65536 := by
  rw [← BitVec.toNat_inj]
  simp [BitVec.extractLsb'_toNat, Nat.shiftRight_eq_div_pow]
  have := acc.isLt
  omega

/-- A sum of 16 bits folds to itself. -/
theorem foldNat_of_lt {t : Nat} (h : t < 65536) : foldNat t = t := by
  simp only [foldNat]
  omega

/-- The fold loop, as a number: two folds of the accumulator. -/
theorem foldLoop_toNat (acc : Word) : (foldLoop 2 acc).toNat = foldNat (foldNat acc.toNat) := by
  simp only [foldLoop, high_eq_zero_iff]
  split_ifs with h1 h2
  · rw [foldNat_of_lt h1, foldNat_of_lt h1]
  · rw [foldOnce_toNat] at h2 ⊢
    rw [foldNat_of_lt h2]
  · rw [foldOnce_toNat, foldOnce_toNat]

/-- Two folds end the loop, for every 32-bit accumulator (R89). -/
theorem foldNat_foldNat_lt (acc : Word) : foldNat (foldNat acc.toNat) < 65536 := by
  have := acc.isLt
  simp only [foldNat]
  omega

/-- The one's-complement sum, as a number: two folds of the accumulator. -/
theorem onesSum_toNat (bytes : List Byte) :
    (onesSum bytes).toNat = foldNat (foldNat (sumWords 0#32 bytes).toNat) := by
  have h := foldNat_foldNat_lt (sumWords 0#32 bytes)
  simp only [onesSum, BitVec.extractLsb'_toNat, foldLoop_toNat, Nat.shiftRight_zero]
  omega

/-- A big-endian pair, as a number. -/
@[simp] theorem beHalf_toNat (a b : Byte) : (beHalf a b).toNat = 256 * a.toNat + b.toNat := by
  have := b.isLt
  simp only [beHalf, BitVec.toNat_append, Nat.shiftLeft_eq]
  rw [Nat.mul_comm, ← Nat.two_pow_add_eq_or_of_lt (by omega)]

/-- RESULT's two halves (10_state.md R30). -/
@[simp] theorem resultWord_sum (h : Half) : (resultWord h).extractLsb' 16 16 = h :=
  BitVec.extractLsb'_append_eq_left

@[simp] theorem resultWord_csum (h : Half) : (resultWord h).extractLsb' 0 16 = ~~~h :=
  BitVec.extractLsb'_append_eq_right

/-- The fixed part of a header is 20 bytes (41_codec.md R97). -/
@[simp] theorem packFields_length (s : State) : (packFields s).length = 20 := rfl

@[simp] theorem bytesOfWord_length (w : Word) : (bytesOfWord w).length = 4 := rfl

@[simp] theorem putChecksum_length (h : List Byte) (c : Half) : (putChecksum h c).length = h.length := by
  simp [putChecksum]

@[simp] theorem headerImage_length (h : List Byte) : (headerImage h).length = h.length := by
  simp [headerImage]

/-- A big-endian word, bit by bit (00_scope.md R9). -/
theorem beWord_getLsbD (b0 b1 b2 b3 : Byte) (j : Nat) :
    (beWord b0 b1 b2 b3).getLsbD j =
      if j < 8 then b3.getLsbD j else if j < 16 then b2.getLsbD (j - 8)
      else if j < 24 then b1.getLsbD (j - 16) else b0.getLsbD (j - 24) := by
  unfold beWord
  simp only [BitVec.getLsbD_append]
  have e1 : j - 8 - 8 = j - 16 := by omega
  have e2 : j - 16 - 8 = j - 24 := by omega
  simp only [e1, e2]
  split_ifs <;> first | rfl | omega

/-- The big-endian word of a word's bytes is the word (00_scope.md R9). -/
@[simp] theorem beWord_bytes (w : Word) :
    beWord (w.extractLsb' 24 8) (w.extractLsb' 16 8) (w.extractLsb' 8 8) (w.extractLsb' 0 8) = w := by
  apply BitVec.eq_of_getLsbD_eq
  intro j hj
  rw [beWord_getLsbD]
  simp only [BitVec.getLsbD_extractLsb']
  split_ifs with h1 h2 h3
  · simp [h1]
  · have : 8 + (j - 8) = j := by omega
    have : j - 8 < 8 := by omega
    simp [*]
  · have : 16 + (j - 16) = j := by omega
    have : j - 16 < 8 := by omega
    simp [*]
  · have : 24 + (j - 24) = j := by omega
    have : j - 24 < 8 := by omega
    simp [*]

/-- PAYLOAD's fields (10_state.md R31). -/
theorem payloadWord_getLsbD (p n j : Nat) :
    (payloadWord p n).getLsbD j =
      if j < 8 then (BitVec.ofNat 8 n).getLsbD j else if j < 16 then false
      else (BitVec.ofNat 16 p).getLsbD (j - 16) := by
  unfold payloadWord
  simp only [BitVec.getLsbD_append]
  have e1 : j - 8 - 8 = j - 16 := by omega
  simp only [e1, BitVec.getLsbD_zero]
  split_ifs <;> first | rfl | omega

/-- PAYLOAD's reserved bits are 0 (10_state.md R31). -/
@[simp] theorem payloadWord_reserved (p n : Nat) : (payloadWord p n).extractLsb' 8 8 = 0#8 := by
  apply BitVec.eq_of_getLsbD_eq
  intro j hj
  have h1 : ¬ 8 + j < 8 := by omega
  have h2 : 8 + j < 16 := by omega
  simp only [BitVec.getLsbD_extractLsb', payloadWord_getLsbD, h1, h2]
  simp

/-- PAYLOAD.PLEN (10_state.md R31). -/
@[simp] theorem payloadWord_plen (p n : Nat) :
    (payloadWord p n).extractLsb' 16 16 = BitVec.ofNat 16 p := by
  apply BitVec.eq_of_getLsbD_eq
  intro j hj
  have h1 : ¬ 16 + j < 8 := by omega
  have h2 : ¬ 16 + j < 16 := by omega
  have h3 : 16 + j - 16 = j := by omega
  simp only [BitVec.getLsbD_extractLsb', payloadWord_getLsbD, h1, h2, h3]
  simp [hj]

/-- PAYLOAD.POFF (10_state.md R31). -/
@[simp] theorem payloadWord_poff (p n : Nat) :
    (payloadWord p n).extractLsb' 0 8 = BitVec.ofNat 8 n := by
  apply BitVec.eq_of_getLsbD_eq
  intro j hj
  have h1 : 0 + j < 8 := by omega
  simp only [BitVec.getLsbD_extractLsb', payloadWord_getLsbD, h1]
  simp [hj]

end Sys2Proof.Machine
end

