-- ==== Sys2Proof/Laws/Ops.lean ====
section
/-! SUPPORT. What the shared operations and the commands can do, said once: later proofs cite these
instead of unfolding. -/

namespace Sys2Proof.Machine

/-- A region read either goes on with the bytes the buffer holds there, or faults at its first
unwritten byte. -/
theorem withRegion_cases (s : State) (a n : Nat) (go : List Byte → Result) :
    (∃ bs, bs.length = n ∧ s.buf.holds a bs ∧ withRegion s a n go = go bs) ∨
    (∃ o, a ≤ o ∧ o < a + n ∧ s.buf.byte o = none ∧
      (∀ k, a ≤ k → k < o → (s.buf.byte k).isSome) ∧
      withRegion s a n go = .fault (.unwrittenByte o)) := by
  unfold withRegion
  cases hr : s.buf.readRange a n with
  | ok bs =>
    obtain ⟨h1, h2⟩ := Memory.readRange_eq_ok.1 hr
    exact .inl ⟨bs, h1, h2, rfl⟩
  | error o =>
    obtain ⟨h1, h2, h3, h4⟩ := Memory.readRange_eq_error hr
    exact .inr ⟨o, h1, h2, h3, h4, rfl⟩

/-- A region whose bytes are known is read as those bytes. -/
theorem withRegion_of_holds {s : State} {a n : Nat} {bs : List Byte} (hl : bs.length = n)
    (hh : s.buf.holds a bs) (go : List Byte → Result) : withRegion s a n go = go bs := by
  simp [withRegion, Memory.readRange_eq_ok.2 ⟨hl, hh⟩]

/-- A region with an unwritten byte faults at the first one. -/
theorem withRegion_of_hasUnwritten {s : State} {a n : Nat} (h : s.buf.hasUnwritten a n)
    (go : List Byte → Result) :
    ∃ o, a ≤ o ∧ o < a + n ∧ s.buf.byte o = none ∧
      withRegion s a n go = .fault (.unwrittenByte o) := by
  obtain ⟨o, hr⟩ := Memory.readRange_of_hasUnwritten h
  obtain ⟨h1, h2, h3, -⟩ := Memory.readRange_eq_error hr
  exact ⟨o, h1, h2, h3, by simp [withRegion, hr]⟩

/-- If a region read answers a next state, its continuation did, on the bytes held there. -/
theorem withRegion_next {s t : State} {a n : Nat} {go : List Byte → Result}
    (h : withRegion s a n go = .next t) :
    ∃ bs, bs.length = n ∧ s.buf.holds a bs ∧ go bs = .next t := by
  rcases withRegion_cases s a n go with ⟨bs, h1, h2, h3⟩ | ⟨o, -, -, -, -, h3⟩
  · exact ⟨bs, h1, h2, h3 ▸ h⟩
  · rw [h3] at h
    cases h

/-- A known byte is read. -/
theorem withByte_some {s : State} {a : Nat} {b : Byte} (h : s.buf.byte a = some b)
    (go : Byte → Result) : withByte s a go = go b := by
  simp [withByte, h]

/-- An unwritten byte faults. -/
theorem withByte_none {s : State} {a : Nat} (h : s.buf.byte a = none) (go : Byte → Result) :
    withByte s a go = .fault (.unwrittenByte a) := by
  simp [withByte, h]

/-- If a byte read answers a next state, its continuation did. -/
theorem withByte_next {s t : State} {a : Nat} {go : Byte → Result}
    (h : withByte s a go = .next t) : ∃ b, s.buf.byte a = some b ∧ go b = .next t := by
  cases hb : s.buf.byte a with
  | none =>
    rw [withByte_none hb] at h
    cases h
  | some b => exact ⟨b, rfl, by rwa [withByte_some hb] at h⟩

/-- An error changes nothing but STATUS, and leaves its code (00_scope.md R10). -/
theorem raiseError_ends (e : CmdError) (s : State) : EndsWithError s (raiseError e s) e.code :=
  ⟨fun j _ => raiseError_status_getLsbD e s j, rfl⟩

/-- A success leaves 0 in ERR (10_state.md R24). -/
theorem succeed_completed (s : State) : CompletedStatus s.status (succeed s).status 0#4 := fun j _ => by
  simp [succeed_status_getLsbD]

/-- The ERR field of a STATUS word known bit by bit after completion. -/
theorem errField_of_completed {old : Word} {t : State} {code : BitVec 4}
    (h : CompletedStatus old t.status code) : t.errField = code := by
  apply BitVec.eq_of_getLsbD_eq
  intro j hj
  have h1 : 4 + j ≠ 0 := by omega
  have h2 : 4 + j ≠ 1 := by omega
  have h3 : 4 + j < 8 := by omega
  have := h (4 + j) (by omega)
  simp only [State.errField, BitVec.getLsbD_extractLsb', this]
  simp [hj, h2, h3]

@[simp] theorem raiseError_errField (e : CmdError) (s : State) : (raiseError e s).errField = e.code :=
  errField_of_completed (raiseError_ends e s).1

@[simp] theorem succeed_errField (s : State) : (succeed s).errField = 0#4 :=
  errField_of_completed (succeed_completed s)

/-- No error has code 0 (60_exceptions.md R116). -/
theorem CmdError.code_ne_zero (e : CmdError) : e.code ≠ 0#4 := by
  cases e <;> decide

/-- What CSUM can do (40_checksum.md R92). -/
theorem execCsum_next {s t : State} (h : execCsum s = .next t) :
    (s.baseOff + s.lenBytes > s.bufBytes ∧ t = raiseError .bounds s) ∨
    (s.baseOff + s.lenBytes ≤ s.bufBytes ∧ ∃ bs, bs.length = s.lenBytes ∧
      s.buf.holds s.baseOff bs ∧ t = succeed { s with result := resultWord (onesSum bs) }) := by
  unfold execCsum at h
  split_ifs at h with hb
  · cases h
    exact .inl ⟨hb, rfl⟩
  · obtain ⟨bs, h1, h2, h3⟩ := withRegion_next h
    cases h3
    exact .inr ⟨by omega, bs, h1, h2, rfl⟩

/-- What ENCODE can do (41_codec.md R104). -/
theorem execEncode_next {s t : State} (h : execEncode s = .next t) :
    (s.hlenField.toNat < 5 ∧ t = raiseError .hlenBad s) ∨
    (5 ≤ s.hlenField.toNat ∧ s.tlenField.toNat < s.headerBytes ∧ t = raiseError .tlenShort s) ∨
    (5 ≤ s.hlenField.toNat ∧ s.headerBytes ≤ s.tlenField.toNat ∧
      s.baseOff + s.headerBytes > s.bufBytes ∧ t = raiseError .bounds s) ∨
    (5 ≤ s.hlenField.toNat ∧ s.headerBytes ≤ s.tlenField.toNat ∧
      s.baseOff + s.headerBytes ≤ s.bufBytes ∧ ∃ opts, opts.length = s.headerBytes - 20 ∧
        s.buf.holds (s.baseOff + 20) opts ∧ t = succeed (encodeWrites s (packFields s ++ opts))) := by
  unfold execEncode at h
  simp only at h
  split_ifs at h with h1 h2 h3
  · cases h
    exact .inl ⟨h1, rfl⟩
  · cases h
    exact .inr (.inl ⟨by omega, h2, rfl⟩)
  · cases h
    exact .inr (.inr (.inl ⟨by omega, by omega, h3, rfl⟩))
  · obtain ⟨opts, e1, e2, e3⟩ := withRegion_next h
    cases e3
    exact .inr (.inr (.inr ⟨by omega, by omega, by omega, opts, e1, e2, rfl⟩))

/-- What DECODE can do (41_codec.md R109). -/
theorem execDecode_next {s t : State} (h : execDecode s = .next t) :
    (s.baseOff + s.lenBytes > s.bufBytes ∧ t = raiseError .bounds s) ∨
    (s.baseOff + s.lenBytes ≤ s.bufBytes ∧ s.lenBytes < 20 ∧ t = raiseError .short s) ∨
    (s.baseOff + s.lenBytes ≤ s.bufBytes ∧ 20 ≤ s.lenBytes ∧
      ∃ first, s.buf.byte s.baseOff = some first ∧
        ((hlenOf first < 5 ∧ t = raiseError .hlenBad s) ∨
         (5 ≤ hlenOf first ∧ 4 * hlenOf first > s.lenBytes ∧ t = raiseError .overrun s) ∨
         (5 ≤ hlenOf first ∧ 4 * hlenOf first ≤ s.lenBytes ∧
          ∃ header, header.length = 4 * hlenOf first ∧ s.buf.holds s.baseOff header ∧
            t = succeed (decodeWrites s header)))) := by
  unfold execDecode at h
  split_ifs at h with h1 h2
  · cases h
    exact .inl ⟨h1, rfl⟩
  · cases h
    exact .inr (.inl ⟨by omega, h2, rfl⟩)
  · obtain ⟨first, hf, e3⟩ := withByte_next h
    refine .inr (.inr ⟨by omega, by omega, first, hf, ?_⟩)
    split_ifs at e3 with h3 h4
    · cases e3
      exact .inl ⟨h3, rfl⟩
    · cases e3
      exact .inr (.inl ⟨by omega, h4, rfl⟩)
    · obtain ⟨hd, d1, d2, d3⟩ := withRegion_next e3
      cases d3
      exact .inr (.inr ⟨by omega, by omega, hd, d1, d2, rfl⟩)

/-- CSUM runs on a region whose bytes are known. -/
theorem execCsum_run {s : State} {bs : List Byte} (h1 : s.baseOff + s.lenBytes ≤ s.bufBytes)
    (hl : bs.length = s.lenBytes) (hh : s.buf.holds s.baseOff bs) :
    execCsum s = .next (succeed { s with result := resultWord (onesSum bs) }) := by
  unfold execCsum
  rw [if_neg (by omega)]
  exact withRegion_of_holds hl hh _

/-- ENCODE runs on option bytes that are known. -/
theorem execEncode_run {s : State} {opts : List Byte} (h1 : 5 ≤ s.hlenField.toNat)
    (h2 : s.headerBytes ≤ s.tlenField.toNat) (h3 : s.baseOff + s.headerBytes ≤ s.bufBytes)
    (hl : opts.length = s.headerBytes - 20) (hh : s.buf.holds (s.baseOff + 20) opts) :
    execEncode s = .next (succeed (encodeWrites s (packFields s ++ opts))) := by
  unfold execEncode
  simp only
  rw [if_neg (by omega), if_neg (by omega), if_neg (by omega)]
  exact withRegion_of_holds hl hh _

/-- DECODE runs on a header whose bytes are known. -/
theorem execDecode_run {s : State} {first : Byte} {header : List Byte}
    (h1 : s.baseOff + s.lenBytes ≤ s.bufBytes) (hf : s.buf.byte s.baseOff = some first)
    (h2 : 5 ≤ hlenOf first) (h3 : 4 * hlenOf first ≤ s.lenBytes)
    (hl : header.length = 4 * hlenOf first) (hh : s.buf.holds s.baseOff header) :
    execDecode s = .next (succeed (decodeWrites s header)) := by
  unfold execDecode
  rw [if_neg (by omega), if_neg (by omega), withByte_some hf, if_neg (by omega), if_neg (by omega)]
  exact withRegion_of_holds hl hh _

/-- What any command that answers a next state did: it raised an error, or it completed with the
writes of its own rule. -/
theorem exec_next {i : Instr} {s t : State} (h : exec i s = .next t) :
    (∃ e, t = raiseError e s) ∨
    (i = .csum ∧ ∃ bs, t = succeed { s with result := resultWord (onesSum bs) }) ∨
    (i = .encode ∧ s.baseOff + s.headerBytes ≤ s.bufBytes ∧ ∃ opts : List Byte,
      20 + opts.length = s.headerBytes ∧ t = succeed (encodeWrites s (packFields s ++ opts))) ∨
    (i = .decode ∧ ∃ header, t = succeed (decodeWrites s header)) := by
  cases i with
  | csum =>
    rcases execCsum_next h with ⟨_, h⟩ | ⟨_, bs, _, _, h⟩
    · exact .inl ⟨_, h⟩
    · exact .inr (.inl ⟨rfl, bs, h⟩)
  | encode =>
    rcases execEncode_next h with ⟨_, h⟩ | ⟨_, _, h⟩ | ⟨_, _, _, h⟩ | ⟨h1, _, h3, opts, hl, _, h⟩
    · exact .inl ⟨_, h⟩
    · exact .inl ⟨_, h⟩
    · exact .inl ⟨_, h⟩
    · exact .inr (.inr (.inl ⟨rfl, h3, opts, by unfold State.headerBytes at *; omega, h⟩))
  | decode =>
    rcases execDecode_next h with
      ⟨_, h⟩ | ⟨_, _, h⟩ | ⟨_, _, _, _, ⟨_, h⟩ | ⟨_, _, h⟩ | ⟨_, _, hd, _, _, h⟩⟩
    · exact .inl ⟨_, h⟩
    · exact .inl ⟨_, h⟩
    · exact .inl ⟨_, h⟩
    · exact .inl ⟨_, h⟩
    · exact .inr (.inr (.inr ⟨rfl, hd, h⟩))
  | illegal w =>
    cases h
    exact .inl ⟨_, rfl⟩

end Sys2Proof.Machine
end

