-- ==== Sys2Proof/Laws/Codec.lean ====
section
/-! SUPPORT. Header byte sequences by their words: what the codec's operations do to `headerOf`. -/

namespace Sys2Proof.Machine

/-- Bit `j` of an extracted field is a bit of the word. -/
theorem extract_getLsbD {n : Nat} (w : BitVec n) (lo len j : Nat) (hj : j < len) :
    (w.extractLsb' lo len).getLsbD j = w.getLsbD (lo + j) := by
  simp [hj]

/-- A field of a field. -/
theorem extract_extract {n : Nat} (w : BitVec n) (lo len lo' len' : Nat) (h : lo' + len' ≤ len) :
    (w.extractLsb' lo len).extractLsb' lo' len' = w.extractLsb' (lo + lo') len' := by
  apply BitVec.eq_of_getLsbD_eq
  intro j hj
  rw [extract_getLsbD _ _ _ _ hj, extract_getLsbD _ _ _ _ (by omega), extract_getLsbD _ _ _ _ hj,
    Nat.add_assoc]

/-- A field of the high part of a concatenation. -/
theorem extract_append_high {n m : Nat} (x : BitVec n) (y : BitVec m) (lo len : Nat) (h : m ≤ lo) :
    (x ++ y).extractLsb' lo len = x.extractLsb' (lo - m) len := by
  apply BitVec.eq_of_getLsbD_eq
  intro j hj
  rw [extract_getLsbD _ _ _ _ hj, extract_getLsbD _ _ _ _ hj, BitVec.getLsbD_append,
    if_neg (by omega), show lo + j - m = lo - m + j by omega]

/-- A field of the low part of a concatenation. -/
theorem extract_append_low {n m : Nat} (x : BitVec n) (y : BitVec m) (lo len : Nat) (h : lo + len ≤ m) :
    (x ++ y).extractLsb' lo len = y.extractLsb' lo len := by
  apply BitVec.eq_of_getLsbD_eq
  intro j hj
  rw [extract_getLsbD _ _ _ _ hj, extract_getLsbD _ _ _ _ hj, BitVec.getLsbD_append,
    if_pos (by omega)]

/-- A field that spans the two parts of a concatenation, its low end the low part's field. -/
theorem extract_append_span {n m : Nat} (x : BitVec n) (y : BitVec m) (lo len len' : Nat)
    (h : lo + len' = m) :
    (x ++ y).extractLsb' lo (len + len') = x.extractLsb' 0 len ++ y.extractLsb' lo len' := by
  apply BitVec.eq_of_getLsbD_eq
  intro j hj
  rw [extract_getLsbD _ _ _ _ hj, BitVec.getLsbD_append, BitVec.getLsbD_append]
  by_cases hl : j < len'
  · rw [if_pos (by omega), if_pos hl, extract_getLsbD _ _ _ _ hl]
  · rw [if_neg (by omega), if_neg hl, extract_getLsbD _ _ _ _ (by omega),
      show lo + j - m = 0 + (j - len') by omega]

/-- Header word 0 as ENCODE packs it: version 4, HLEN, B1, TLEN (41_codec.md R97, R101). -/
theorem bytesOfWord_hdr0 (s : State) :
    bytesOfWord (setVer s.hdr0 4#4) =
      [4#4 ++ s.hlenField, s.b1Field, hiByte s.tlenField, loByte s.tlenField] := by
  have e0 : (setVer s.hdr0 4#4).extractLsb' 24 8 = 4#4 ++ s.hlenField := by
    have h := extract_append_span (4#4) (s.hdr0.extractLsb' 0 28) 24 4 4 (by omega)
    rw [extract_extract _ _ _ _ _ (by omega)] at h
    exact h
  have e1 : (setVer s.hdr0 4#4).extractLsb' 16 8 = s.b1Field :=
    (extract_append_low _ _ _ _ (by omega)).trans (extract_extract _ _ _ _ _ (by omega))
  have e2 : (setVer s.hdr0 4#4).extractLsb' 8 8 = hiByte s.tlenField :=
    (extract_append_low _ _ _ _ (by omega)).trans
      ((extract_extract _ _ _ _ _ (by omega)).trans (extract_extract _ _ _ _ _ (by omega)).symm)
  have e3 : (setVer s.hdr0 4#4).extractLsb' 0 8 = loByte s.tlenField :=
    (extract_append_low _ _ _ _ (by omega)).trans
      ((extract_extract _ _ _ _ _ (by omega)).trans (extract_extract _ _ _ _ _ (by omega)).symm)
  rw [bytesOfWord, e0, e1, e2, e3]

/-- A word with a checksum put into its low half, byte by byte (30_encoding.md R70, word 2). -/
theorem bytesOfWord_setChecksumField (w : Word) (c : Half) :
    bytesOfWord (setChecksumField w c) =
      [w.extractLsb' 24 8, w.extractLsb' 16 8, hiByte c, loByte c] := by
  have e0 : (setChecksumField w c).extractLsb' 24 8 = w.extractLsb' 24 8 :=
    (extract_append_high _ _ _ _ (by omega)).trans (extract_extract _ _ _ _ _ (by omega))
  have e1 : (setChecksumField w c).extractLsb' 16 8 = w.extractLsb' 16 8 :=
    (extract_append_high _ _ _ _ (by omega)).trans (extract_extract _ _ _ _ _ (by omega))
  have e2 : (setChecksumField w c).extractLsb' 8 8 = hiByte c := extract_append_low _ _ _ _ (by omega)
  have e3 : (setChecksumField w c).extractLsb' 0 8 = loByte c := extract_append_low _ _ _ _ (by omega)
  rw [bytesOfWord, e0, e1, e2, e3]

/-- `PackFields` and the option bytes are the header of the field registers with version 4 and the
checksum field zero (41_codec.md R97). -/
theorem packFields_append (s : State) (options : List Byte) :
    packFields s ++ options =
      headerOf (setVer s.hdr0 4#4) s.hdr1 (clearChecksum s.hdr2) s.hdr3 s.hdr4 options := by
  have h2 : bytesOfWord (clearChecksum s.hdr2) = [s.ttlField, s.protoField, 0#8, 0#8] :=
    bytesOfWord_setChecksumField s.hdr2 0#16
  simp only [packFields, headerOf, bytesOfWord_hdr0, h2]

@[simp] theorem headerOf_length (w0 w1 w2 w3 w4 : Word) (options : List Byte) :
    (headerOf w0 w1 w2 w3 w4 options).length = 20 + options.length := by
  simp [headerOf]
  omega

/-- Putting a checksum into a header is putting it into header word 2. -/
theorem putChecksum_headerOf (w0 w1 w2 w3 w4 : Word) (options : List Byte) (c : Half) :
    putChecksum (headerOf w0 w1 w2 w3 w4 options) c =
      headerOf w0 w1 (setChecksumField w2 c) w3 w4 options := by
  simp only [headerOf, bytesOfWord_setChecksumField]
  rfl

/-- A checksum put into a word replaces the one that was there. -/
@[simp] theorem setChecksumField_twice (w : Word) (c c' : Half) :
    setChecksumField (setChecksumField w c) c' = setChecksumField w c' := by
  have : (setChecksumField w c).extractLsb' 16 16 = w.extractLsb' 16 16 :=
    (extract_append_high _ _ _ _ (by omega)).trans (extract_extract _ _ _ _ _ (by omega))
  unfold setChecksumField at this ⊢
  rw [this]

@[simp] theorem setChecksumField_low (w : Word) (c : Half) :
    (setChecksumField w c).extractLsb' 0 16 = c :=
  (extract_append_low _ _ _ _ (by omega)).trans BitVec.extractLsb'_eq_self

/-- Version 4 put in twice is version 4 (41_codec.md R101). -/
@[simp] theorem setVer_twice (w : Word) (v v' : BitVec 4) : setVer (setVer w v) v' = setVer w v' := by
  have : (setVer w v).extractLsb' 0 28 = w.extractLsb' 0 28 :=
    (extract_append_low _ _ _ _ (by omega)).trans BitVec.extractLsb'_eq_self
  unfold setVer at this ⊢
  rw [this]

/-- The image of a header is the header with the checksum of word 2 zero (41_codec.md R99). -/
theorem headerImage_headerOf (w0 w1 w2 w3 w4 : Word) (options : List Byte) :
    headerImage (headerOf w0 w1 w2 w3 w4 options) =
      headerOf w0 w1 (clearChecksum w2) w3 w4 options :=
  putChecksum_headerOf w0 w1 w2 w3 w4 options 0#16

/-- The five words of a header (30_encoding.md R70). -/
theorem wordAt_headerOf (w0 w1 w2 w3 w4 : Word) (options : List Byte) :
    wordAt (headerOf w0 w1 w2 w3 w4 options) 0 = w0 ∧
    wordAt (headerOf w0 w1 w2 w3 w4 options) 1 = w1 ∧
    wordAt (headerOf w0 w1 w2 w3 w4 options) 2 = w2 ∧
    wordAt (headerOf w0 w1 w2 w3 w4 options) 3 = w3 ∧
    wordAt (headerOf w0 w1 w2 w3 w4 options) 4 = w4 :=
  ⟨beWord_bytes w0, beWord_bytes w1, beWord_bytes w2, beWord_bytes w3, beWord_bytes w4⟩

/-- A half put together from its bytes. -/
@[simp] theorem beHalf_bytes (w : Word) (lo : Nat) :
    beHalf (w.extractLsb' (lo + 8) 8) (w.extractLsb' lo 8) = w.extractLsb' lo 16 := by
  apply BitVec.eq_of_getLsbD_eq
  intro j hj
  unfold beHalf
  rw [BitVec.getLsbD_append, extract_getLsbD _ _ _ _ hj]
  split_ifs with h
  · rw [extract_getLsbD _ _ _ _ h]
  · rw [extract_getLsbD _ _ _ _ (by omega), show lo + 8 + (j - 8) = lo + j by omega]

/-- The fields DECODE checks, from the header's words (30_encoding.md R70): version, total length and
stored checksum. -/
theorem fields_headerOf (w0 w1 w2 w3 w4 : Word) (options : List Byte) :
    (byteAt (headerOf w0 w1 w2 w3 w4 options) 0).extractLsb' 4 4 = w0.extractLsb' 28 4 ∧
    (byteAt (headerOf w0 w1 w2 w3 w4 options) 0).extractLsb' 0 4 = w0.extractLsb' 24 4 ∧
    beHalf (byteAt (headerOf w0 w1 w2 w3 w4 options) 2) (byteAt (headerOf w0 w1 w2 w3 w4 options) 3) =
      w0.extractLsb' 0 16 ∧
    beHalf (byteAt (headerOf w0 w1 w2 w3 w4 options) 10) (byteAt (headerOf w0 w1 w2 w3 w4 options) 11) =
      w2.extractLsb' 0 16 :=
  ⟨extract_extract w0 24 8 4 4 (by omega), extract_extract w0 24 8 0 4 (by omega),
    beHalf_bytes w0 0, beHalf_bytes w2 0⟩

/-- The version nibble does not reach HLEN. -/
@[simp] theorem setVer_hlen (w : Word) (v : BitVec 4) :
    (setVer w v).extractLsb' 24 4 = w.extractLsb' 24 4 :=
  (extract_append_low _ _ _ _ (by omega)).trans (extract_extract _ _ _ _ _ (by omega))

/-- The version nibble does not reach TLEN. -/
@[simp] theorem setVer_tlen (w : Word) (v : BitVec 4) :
    (setVer w v).extractLsb' 0 16 = w.extractLsb' 0 16 :=
  (extract_append_low _ _ _ _ (by omega)).trans (extract_extract _ _ _ _ _ (by omega))

/-- The version put in is the version read. -/
@[simp] theorem setVer_ver (w : Word) (v : BitVec 4) : (setVer w v).extractLsb' 28 4 = v :=
  (extract_append_high _ _ _ _ (by omega)).trans BitVec.extractLsb'_eq_self

/-- Clearing the checksum forgets which one stood there. -/
@[simp] theorem clearChecksum_set (w : Word) (c : Half) :
    clearChecksum (setChecksumField w c) = clearChecksum w :=
  setChecksumField_twice w c 0#16

/-- The first byte of a header is the high byte of its word 0. -/
theorem headerOf_first (w0 w1 w2 w3 w4 : Word) (options : List Byte) :
    (headerOf w0 w1 w2 w3 w4 options)[0]? = some (w0.extractLsb' 24 8) := rfl

/-- HLEN of a header is bits 27:24 of its word 0. -/
theorem hlenOf_first (w0 : Word) : hlenOf (w0.extractLsb' 24 8) = (w0.extractLsb' 24 4).toNat := by
  unfold hlenOf
  rw [extract_extract _ _ _ _ _ (by omega)]

/-- Every sequence of at least 20 bytes is a header of five words and option bytes. -/
theorem exists_headerOf {h : List Byte} (hl : 20 ≤ h.length) :
    ∃ w0 w1 w2 w3 w4 options, h = headerOf w0 w1 w2 w3 w4 options := by
  have four : ∀ l : List Byte, 4 ≤ l.length → ∃ w rest, l = bytesOfWord w ++ rest := by
    intro l hl
    match l, hl with
    | a :: b :: c :: d :: rest, _ =>
      refine ⟨beWord a b c d, rest, ?_⟩
      have e0 : (beWord a b c d).extractLsb' 24 8 = a :=
        (extract_append_high _ _ _ _ (by omega)).trans
          ((extract_append_high _ _ _ _ (by omega)).trans
            ((extract_append_high _ _ _ _ (by omega)).trans BitVec.extractLsb'_eq_self))
      have e1 : (beWord a b c d).extractLsb' 16 8 = b :=
        (extract_append_high _ _ _ _ (by omega)).trans
          ((extract_append_high _ _ _ _ (by omega)).trans
            ((extract_append_low _ _ _ _ (by omega)).trans BitVec.extractLsb'_eq_self))
      have e2 : (beWord a b c d).extractLsb' 8 8 = c :=
        (extract_append_high _ _ _ _ (by omega)).trans
          ((extract_append_low _ _ _ _ (by omega)).trans BitVec.extractLsb'_eq_self)
      have e3 : (beWord a b c d).extractLsb' 0 8 = d :=
        (extract_append_low _ _ _ _ (by omega)).trans BitVec.extractLsb'_eq_self
      simp [bytesOfWord, e0, e1, e2, e3]
  obtain ⟨w0, r0, rfl⟩ := four h (by omega)
  simp only [List.length_append, bytesOfWord_length] at hl
  obtain ⟨w1, r1, rfl⟩ := four r0 (by omega)
  simp only [List.length_append, bytesOfWord_length] at hl
  obtain ⟨w2, r2, rfl⟩ := four r1 (by omega)
  simp only [List.length_append, bytesOfWord_length] at hl
  obtain ⟨w3, r3, rfl⟩ := four r2 (by omega)
  simp only [List.length_append, bytesOfWord_length] at hl
  obtain ⟨w4, r4, rfl⟩ := four r3 (by omega)
  exact ⟨w0, w1, w2, w3, w4, r4, by simp [headerOf]⟩

end Sys2Proof.Machine
end

