-- ==== Sys2Proof/Laws/Decode.lean ====
section
/-! SUPPORT. Small laws of the command words (30_encoding.md R62 to R65). -/

namespace Sys2Proof

/-- A word is its two fields (R62). -/
theorem cmd32_fields (w : Word) : cmd32 (rzField w) (opField w) = w := by
  apply BitVec.eq_of_getLsbD_eq
  intro j hj
  unfold cmd32 rzField opField
  simp only [BitVec.getLsbD_append, BitVec.getLsbD_extractLsb']
  split_ifs with h
  · simp [h]
  · have : 4 + (j - 4) = j := by omega
    have : j - 4 < 28 := by omega
    simp [*]

/-- What the decoder can answer for a word, said once. -/
theorem decodeWord_cases (w : Word) :
    (w = 1#32 ∧ decodeWord w = .csum) ∨ (w = 2#32 ∧ decodeWord w = .encode) ∨
    (w = 3#32 ∧ decodeWord w = .decode) ∨
    (w ≠ 1#32 ∧ w ≠ 2#32 ∧ w ≠ 3#32 ∧ legalWord w = false ∧ decodeWord w = .illegal w) := by
  have hw := cmd32_fields w
  by_cases h : rzField w = 0#28
  · by_cases h1 : opField w = 1#4
    · rw [h, h1] at hw
      exact .inl ⟨hw.symm, by simp [decodeWord, h, h1]⟩
    by_cases h2 : opField w = 2#4
    · rw [h, h2] at hw
      exact .inr (.inl ⟨hw.symm, by simp [decodeWord, h, h2]⟩)
    by_cases h3 : opField w = 3#4
    · rw [h, h3] at hw
      exact .inr (.inr (.inl ⟨hw.symm, by simp [decodeWord, h, h3]⟩))
    refine .inr (.inr (.inr ⟨?_, ?_, ?_, ?_, by simp [decodeWord, h1, h2, h3]⟩))
    · rintro rfl
      exact h1 (by decide)
    · rintro rfl
      exact h2 (by decide)
    · rintro rfl
      exact h3 (by decide)
    · unfold opField at h1 h2 h3
      simp [legalWord, h1, h2, h3]
  · refine .inr (.inr (.inr ⟨?_, ?_, ?_, ?_, by simp [decodeWord, h]⟩))
    · rintro rfl
      exact h (by decide)
    · rintro rfl
      exact h (by decide)
    · rintro rfl
      exact h (by decide)
    · unfold rzField at h
      simp [legalWord, h]

/-- A word's byte lanes, bit by bit. -/
theorem wordOfLanes_getLsbD (b0 b1 b2 b3 : Byte) (j : Nat) :
    (wordOfLanes b0 b1 b2 b3).getLsbD j =
      if j < 8 then b0.getLsbD j else if j < 16 then b1.getLsbD (j - 8)
      else if j < 24 then b2.getLsbD (j - 16) else b3.getLsbD (j - 24) := by
  unfold wordOfLanes
  simp only [BitVec.getLsbD_append]
  have e1 : j - 8 - 8 = j - 16 := by omega
  have e2 : j - 16 - 8 = j - 24 := by omega
  simp only [e1, e2]
  split_ifs <;> first | rfl | omega

end Sys2Proof
end

