-- ==== Sys2Proof/Laws/PerInstr.lean ====
section
/-! SUPPORT. The family of per-command statements named in LAWS.json: a well-formed command's word is
legal (30_encoding.md R64) exactly when the command is one of the three. -/

namespace Sys2Proof.Laws.WordLegality

/-- Whether the command is one of the three of 30_encoding.md R63. -/
def isLegalCommand : Instr → Bool
  | .csum => true
  | .encode => true
  | .decode => true
  | .illegal _ => false

/-- A well-formed command's word is legal exactly when the command is one of the three. -/
def Statement (i : Instr) : Prop := i.wellFormed = true → legalWord (encodeWord i) = isLegalCommand i

theorem csum : Statement .csum := fun _ => by decide

theorem encode : Statement .encode := fun _ => by decide

theorem decode : Statement .decode := fun _ => by decide

theorem illegal (w : Word) : Statement (.illegal w) := fun h => by
  simpa [Instr.wellFormed, encodeWord, isLegalCommand] using h

end Sys2Proof.Laws.WordLegality
end

