-- ==== Sys2Proof/Laws/Step.lean ====
section
/-! SUPPORT. What a step can do, said once (10_state.md R13). -/

namespace Sys2Proof.Machine

/-- The engine has a pending command exactly when BUSY is 1 and PEND holds its word. -/
theorem pendingWord_eq_some {s : State} {w : Word} :
    pendingWord s = some w ↔ s.busyFlag = true ∧ s.pend = some w := by
  unfold pendingWord
  cases s.busyFlag <;> simp

/-- The engine's turn with a pending command is that command. -/
theorem engineTurn_pending {s : State} {w : Word} (h : pendingWord s = some w) :
    engineTurn s = exec (decodeWord w) s := by
  simp [engineTurn, h]

/-- The engine's turn without one changes nothing. -/
theorem engineTurn_idle {s : State} (h : pendingWord s = none) : engineTurn s = .next s := by
  simp [engineTurn, h]

@[simp] theorem step_nil {s : State} (h : s.events = []) : step s = engineTurn s := by
  simp [step, nextTurn, h]

@[simp] theorem step_cons {s : State} {e : Event} {es : List Event} (h : s.events = e :: es) :
    step s = runEvent e { s with events := es } := by
  simp [step, nextTurn, h]

/-- What a step that answers a next state did: a host read, write or reset, a command, or an idle
engine turn. -/
theorem step_next {s t : State} (h : step s = .next t) :
    (∃ a es, s.events = .read a :: es ∧ t = hostRead a { s with events := es }) ∨
    (∃ a d st es, s.events = .write a d st :: es ∧ t = busWrite { s with events := es } a d st) ∨
    (∃ es, s.events = .reset :: es ∧ t = blockReset { s with events := es }) ∨
    (∃ u w, (s.events = [] ∧ u = s ∨ ∃ es, s.events = .engine :: es ∧ u = { s with events := es }) ∧
      pendingWord u = some w ∧ exec (decodeWord w) u = .next t) ∨
    (∃ u, (s.events = [] ∧ u = s ∨ ∃ es, s.events = .engine :: es ∧ u = { s with events := es }) ∧
      pendingWord u = none ∧ t = u) := by
  have turn : ∀ u, engineTurn u = .next t →
      (∃ w, pendingWord u = some w ∧ exec (decodeWord w) u = .next t) ∨
      (pendingWord u = none ∧ t = u) := by
    intro u hu
    cases hp : pendingWord u with
    | some w => exact .inl ⟨w, rfl, by rwa [engineTurn_pending hp] at hu⟩
    | none =>
      rw [engineTurn_idle hp] at hu
      cases hu
      exact .inr ⟨rfl, rfl⟩
  cases he : s.events with
  | nil =>
    rw [step_nil he] at h
    rcases turn s h with ⟨w, h1, h2⟩ | ⟨h1, h2⟩
    · exact .inr (.inr (.inr (.inl ⟨s, w, .inl ⟨rfl, rfl⟩, h1, h2⟩)))
    · exact .inr (.inr (.inr (.inr ⟨s, .inl ⟨rfl, rfl⟩, h1, h2⟩)))
  | cons e es =>
    rw [step_cons he] at h
    cases e with
    | read a =>
      cases h
      exact .inl ⟨a, es, rfl, rfl⟩
    | write a d st =>
      cases h
      exact .inr (.inl ⟨a, d, st, es, rfl, rfl⟩)
    | reset =>
      cases h
      exact .inr (.inr (.inl ⟨es, rfl, rfl⟩))
    | engine =>
      rcases turn _ h with ⟨w, h1, h2⟩ | ⟨h1, h2⟩
      · exact .inr (.inr (.inr (.inl ⟨_, w, .inr ⟨es, rfl, rfl⟩, h1, h2⟩)))
      · exact .inr (.inr (.inr (.inr ⟨_, .inr ⟨es, rfl, rfl⟩, h1, h2⟩)))

/-- A placed command is the next step. -/
theorem step_withFetchWord (s : State) (nbits w : Nat) :
    step (s.withFetchWord nbits w) =
      exec (decodeWord (BitVec.ofNat 32 (w % 2 ^ nbits))) (s.withFetchWord nbits w) := by
  have hb : (s.withFetchWord nbits w).busyFlag = true := by
    show (acceptCommand (BitVec.ofNat 32 (w % 2 ^ nbits)) s).status.getLsbD 0 = true
    rw [acceptCommand_status_getLsbD]
    simp
  rw [step_nil (s := s.withFetchWord nbits w) rfl]
  exact engineTurn_pending (pendingWord_eq_some.2 ⟨hb, rfl⟩)

/-- A run takes a step that answers a next state, and goes on from it. -/
theorem run_next {s t : State} (h : step s = .next t) (k : Nat) :
    core.run (k + 1) s = core.run k t := by
  have run : ∀ (m : Host.Core) (a b : m.State), m.step a = .next b → m.run (k + 1) a = m.run k b :=
    fun m a b hm => by simp [Host.Core.run, hm]
  exact run core s t h

/-- A run ends at a fault. -/
theorem run_fault {s : State} {f : Fault} (h : step s = .fault f) (k : Nat) :
    core.run (k + 1) s = .fault f := by
  have run : ∀ (m : Host.Core) (a : m.State) (g : m.Fault), m.step a = .fault g →
      m.run (k + 1) a = .fault g := fun m a g hm => by simp [Host.Core.run, hm]
  exact run core s f h

end Sys2Proof.Machine
end

