-- ==== Sys2Proof/Tests/Slice0.lean ====
section
/-! SUPPORT. The session's own tests. Expected values are those of 95_test_vectors.md, or are written
out from the rule a comment names. The `witness_` theorems show, for each obligation with hypotheses,
concrete values that meet all of them together. -/

namespace Sys2Proof.Tests

open Sys2Proof Sys2Proof.Machine

/-! ## Helpers -/

/-- A step's outcome is a next state with a property. -/
def nextWith (o : Result) (p : State → Bool) : Bool :=
  match o with
  | .next t => p t
  | .fault _ => false
  | .refused _ => false

theorem nextWith_spec {o : Result} {p : State → Bool} (h : nextWith o p = true) :
    ∃ t, o = .next t ∧ p t = true := by
  cases o with
  | next t => exact ⟨t, rfl, h⟩
  | fault f => cases h
  | refused r => cases h

/-- A step's outcome is a fault. -/
def isFault (o : Result) : Bool :=
  match o with
  | .next _ => false
  | .fault _ => true
  | .refused _ => false

theorem isFault_spec {o : Result} (h : isFault o = true) : ∃ f, o = .fault f := by
  cases o with
  | next t => cases h
  | fault f => exact ⟨f, rfl⟩
  | refused r => cases h

/-- Reset with a 64-byte buffer, a region, HDR0 and buffer bytes at an offset. -/
def block (base len : Nat) (hdr0 : Word) (a : Nat) (bytes : List Byte) : State :=
  { State.reset with
    bufSize := 0
    base := BitVec.ofNat 32 base
    len := BitVec.ofNat 32 len
    hdr0 := hdr0
    buf := Memory.writeList [] a bytes }

/-- The header bytes of V-E1. -/
def headerE1 : List Byte :=
  [0x45#8, 0x00#8, 0x00#8, 0x14#8, 0x00#8, 0x00#8, 0x00#8, 0x00#8, 0x00#8, 0x00#8,
   0xBA#8, 0xEB#8, 0x00#8, 0x00#8, 0x00#8, 0x00#8, 0x00#8, 0x00#8, 0x00#8, 0x00#8]

/-- The header bytes of V-D10 with a stored checksum. -/
def headerD10 (c : Byte) : List Byte :=
  [0x45#8, 0x00#8, 0x00#8, 0x14#8, 0x00#8, 0x00#8, 0x00#8, 0x00#8, 0x40#8, 0x11#8,
   c, c, 0xC0#8, 0xA8#8, 0x00#8, 0x01#8, 0xC0#8, 0xA8#8, 0xF9#8, 0x87#8]

/-- V-E1's header in a 64-byte buffer at offset 0, with LEN. -/
def received (len : Nat) : State := block 0 len 0#32 0 headerE1

/-- V-D10's header in a 64-byte buffer at offset 0, its checksum bytes as given. -/
def negativeZero (c : Byte) : State := block 0 20 0#32 0 (headerD10 c)

/-- A 64-byte block with HLEN 5 and TLEN 20 at the last BASE that has room (V-E11's shape). -/
def packing : State := block 44 0 0x05000014#32 0 []

/-! ## Well-formed commands (30_encoding.md R64) -/

theorem test_wellFormed_refuses_legal_words_as_illegal :
    (Instr.illegal 0x00000001#32).wellFormed = false ∧
    (Instr.illegal 0x00000002#32).wellFormed = false ∧
    (Instr.illegal 0x00000003#32).wellFormed = false ∧
    (Instr.illegal 0x00000000#32).wellFormed = true ∧
    (Instr.illegal 0x00000004#32).wellFormed = true ∧
    (Instr.illegal 0x00000011#32).wellFormed = true := by decide

/-! ## Decoding: words written out field by field from 30_encoding.md R62 and R63 -/

/-- RZ is 28 zeros, OP is 0001. -/
theorem test_decode_csum :
    decodeWord 0b0000000000000000000000000000_0001#32 = .csum := by decide

/-- RZ is 28 zeros, OP is 0010. -/
theorem test_decode_encode :
    decodeWord 0b0000000000000000000000000000_0010#32 = .encode := by decide

/-- RZ is 28 zeros, OP is 0011. -/
theorem test_decode_decode :
    decodeWord 0b0000000000000000000000000000_0011#32 = .decode := by decide

/-- One bit of RZ set beside a legal OP, and OP 0 and 15 with RZ zero (R64, R65). -/
theorem test_decode_illegal :
    decodeWord 0b0000000000000000000000000001_0001#32 = .illegal 0x00000011#32 ∧
    decodeWord 0b1000000000000000000000000000_0011#32 = .illegal 0x80000003#32 ∧
    decodeWord 0b0000000000000000000000000000_0000#32 = .illegal 0x00000000#32 ∧
    decodeWord 0b0000000000000000000000000000_1111#32 = .illegal 0x0000000F#32 := by decide

/-- Bit 0 of the table's numbering is bit 0 of the word; lane 0 holds bits 7:0. -/
theorem test_decode_table_words :
    decodeTableWord 32 1 = some .csum ∧ decodeTableWord 32 2 = some .encode ∧
    decodeTableWord 32 3 = some .decode ∧
    decodeTableWord 32 0x80000001 = some (.illegal 0x80000001#32) ∧
    decodeTableWord 4 3 = some .decode ∧ decodeTableWord 40 1 = none := by decide

/-- A placed command is the very next step. -/
theorem test_placed_word_runs_next :
    nextWith (step (State.reset.withFetchWord 32 1)) (fun t => t.result == 0x0000FFFF#32) = true ∧
    nextWith (step (State.reset.withFetchWord 32 2)) (fun t => t.status == 0x00000042#32) = true ∧
    nextWith (step (State.reset.withFetchWord 32 3)) (fun t => t.status == 0x00000032#32) = true ∧
    nextWith (step (State.reset.withFetchWord 32 0)) (fun t => t.status == 0x00000012#32) = true := by
  decide

/-! ## The commands -/

/-- V-C20: words pair from BASE, here odd. -/
theorem test_csum_odd_base :
    nextWith (exec .csum (block 1 4 0#32 0 [0x12#8, 0x34#8, 0x56#8, 0x78#8, 0x9A#8]))
      (fun t => t.result == 0xACF0530F#32 && t.errField == 0#4) = true := by decide

/-- V-C7 and V-C5: two folds, and an odd length. -/
theorem test_csum_two_folds :
    onesSum [0xFF#8, 0xFF#8, 0xFF#8, 0xFF#8, 0x00#8, 0x01#8] = 0x0001#16 ∧
    onesSum [0x12#8, 0x34#8, 0x56#8] = 0x6834#16 := by decide

/-- V-E13: version 4 and the checksum replace register bits, B1 and W1 are carried. -/
theorem test_encode_carries_unnamed_bytes :
    nextWith
      (exec .encode { block 0 0 0x05AB0014#32 0 [] with hdr1 := 0x12345678#32, hdr2 := 0x01020000#32 })
      (fun t => t.result == 0xAF6D5092#32 && t.hdr0 == 0x45AB0014#32 && t.hdr2 == 0x01025092#32 &&
        t.buf.byte 0 == some 0x45#8 && t.buf.byte 1 == some 0xAB#8 && t.buf.byte 11 == some 0x92#8) =
      true := by decide

/-- V-E12's order: HLEN_BAD comes before BOUNDS. -/
theorem test_encode_reports_header_length_first :
    nextWith (exec .encode (block 60 0 0x03000014#32 0 []))
      (fun t => t.errField == 4#4 && t.hdr0 == 0x03000014#32 && t.buf.isEmpty) = true := by decide

/-- V-D9: LEN differs from TLEN, so the packet is not accepted under STRICT. -/
theorem test_decode_length_mismatch :
    nextWith (exec .decode (received 24))
      (fun t => t.status == 0x00000402#32 && t.payload == 0x00000014#32 && t.hdr0 == 0x45000014#32) =
      true := by decide

/-- V-D11: a stored negative zero is CSUM_BAD. -/
theorem test_decode_negative_zero :
    nextWith (exec .decode (negativeZero 0xFF#8))
      (fun t => t.status == 0x00000102#32 && t.result == 0xFFFF0000#32) = true := by decide

/-- V-K6. -/
theorem test_illegal_word_reports_error_one :
    nextWith (exec (.illegal 0xFFFFFFFF#32) State.reset) (fun t => t.status == 0x00000012#32) = true := by
  decide

/-! ## The bus -/

/-- V-R2, V-R3, V-R5, V-R7. -/
theorem test_register_access :
    busRead State.reset 0x00003#17 = 0x49504843#32 ∧
    busRead State.reset 0x00004#17 = 0x00000010#32 ∧
    (busWrite State.reset 0x00008#17 0xFFFFFFFF#32 0xF#4).ctrl = 0x00000003#32 ∧
    (busWrite { State.reset with base := 0x00005678#32 } 0x00014#17 0xAAAA00CD#32 0x1#4).base =
      0x000056CD#32 := by decide

/-- V-R14, V-R15: lane 2 of a window word is its second byte. -/
theorem test_window_lanes :
    busRead
      (busWrite (busWrite State.reset 0x10000#17 0xA1B2C3D4#32 0xF#4) 0x10000#17 0x00EE0000#32 0x4#4)
      0x10002#17 = 0xA1EEC3D4#32 := by decide

/-- The buffer of the reset state has the canonical form. -/
theorem test_reset_memory_wf : State.reset.buf.wf = true := by decide

/-! ## Witnesses -/

theorem witness_DecodeEncodeAgree :
    (Instr.illegal 0xFFFFFFF1#32).wellFormed = true ∧ Instr.decode.wellFormed = true ∧
    decode [0x03#8, 0x00#8, 0x00#8, 0x00#8] = .ok .decode := by decide

theorem witness_StepRunsPendingCommand :
    ((acceptCommand 3#32 State.reset).busyFlag = true ∧
      (acceptCommand 3#32 State.reset).pend = some 3#32 ∧ decode (lanesOfWord 3#32) = .ok .decode ∧
      (acceptCommand 3#32 State.reset).events = []) ∧
    ({ acceptCommand 3#32 State.reset with events := [.engine, .reset] }.busyFlag = true ∧
      { acceptCommand 3#32 State.reset with events := [.engine, .reset] }.pend = some 3#32 ∧
      { acceptCommand 3#32 State.reset with events := [.engine, .reset] }.events =
        .engine :: [.reset]) := by decide

theorem witness_StepTakesHostEvents :
    { State.reset with events := [.read 0#17] }.events = .read 0#17 :: [] ∧
    { State.reset with events := [.write 0#17 0#32 0xF#4] }.events = .write 0#17 0#32 0xF#4 :: [] ∧
    { State.reset with events := [.reset] }.events = .reset :: [] := by decide

theorem witness_EngineStepsOnlyWhenBusy :
    (State.reset.busyFlag = false ∧ State.reset.events = []) ∧
    ({ State.reset with events := [.engine] }.busyFlag = false ∧
      { State.reset with events := [.engine] }.events = .engine :: []) := by decide

/-- The region that ends at BUF_BYTES, and the one a byte longer. -/
theorem witness_CsumComputesChecksum :
    (let s := block 62 2 0#32 62 [0xAB#8, 0xCD#8]
     s.baseOff + s.lenBytes = s.bufBytes ∧ [0xAB#8, 0xCD#8].length = s.lenBytes ∧
       s.buf.holds s.baseOff [0xAB#8, 0xCD#8]) ∧
    (let s := block 62 3 0#32 62 []
     s.baseOff + s.lenBytes > s.bufBytes) := by decide

theorem witness_CsumOfEmptyRegion :
    (block 64 0 0#32 0 []).lenField = 0#16 ∧
    (block 64 0 0#32 0 []).baseOff ≤ (block 64 0 0#32 0 []).bufBytes ∧
    (block 65 0 0#32 0 []).lenField = 0#16 ∧
    (block 65 0 0#32 0 []).baseOff > (block 65 0 0#32 0 []).bufBytes := by decide

theorem witness_CsumDependsOnRegionOnly :
    let s := block 0 2 0#32 0 [0xAB#8, 0xCD#8]
    let s' := block 62 2 1#32 62 [0xAB#8, 0xCD#8]
    s.baseOff + s.lenBytes ≤ s.bufBytes ∧ s'.baseOff + s'.lenBytes ≤ s'.bufBytes ∧
    [0xAB#8, 0xCD#8].length = s.lenBytes ∧ [0xAB#8, 0xCD#8].length = s'.lenBytes ∧
    s.buf.holds s.baseOff [0xAB#8, 0xCD#8] ∧ s'.buf.holds s'.baseOff [0xAB#8, 0xCD#8] := by decide

/-- HLEN 5 at the last BASE with room, and HLEN 6 with an option word. -/
theorem witness_EncodeWritesHeader :
    (5 ≤ packing.hlenField.toNat ∧ packing.headerBytes ≤ packing.tlenField.toNat ∧
      packing.baseOff + packing.headerBytes = packing.bufBytes ∧
      ([] : List Byte).length = packing.headerBytes - 20 ∧ packing.buf.holds (packing.baseOff + 20) []) ∧
    (let s := block 0 0 0x06000018#32 20 [1#8, 2#8, 3#8, 4#8]
     5 ≤ s.hlenField.toNat ∧ s.headerBytes ≤ s.tlenField.toNat ∧
      s.baseOff + s.headerBytes ≤ s.bufBytes ∧ [1#8, 2#8, 3#8, 4#8].length = s.headerBytes - 20 ∧
      s.buf.holds (s.baseOff + 20) [1#8, 2#8, 3#8, 4#8]) := by decide

theorem witness_EncodeRaisesErrors :
    (block 0 0 0x04000014#32 0 []).hlenField.toNat < 5 ∧
    (let s := block 0 0 0x05000013#32 0 []
     5 ≤ s.hlenField.toNat ∧ s.tlenField.toNat < 4 * s.hlenField.toNat) ∧
    (let s := block 45 0 0x05000014#32 0 []
     5 ≤ s.hlenField.toNat ∧ 4 * s.hlenField.toNat ≤ s.tlenField.toNat ∧
       s.baseOff + 4 * s.hlenField.toNat > s.bufBytes) := by decide

/-- Two packings that differ in VER and CHECKSUM alone, and a buffer in canonical form. -/
theorem witness_EncodeIsDeterministic :
    let s' : State := { packing with hdr0 := 0x65000014#32, hdr2 := 0x0000BEEF#32 }
    (∃ t, exec .encode packing = .next t ∧ (t.errField == 0#4) = true) ∧
    (∃ t, exec .encode s' = .next t ∧ (t.errField == 0#4) = true) ∧
    packing.baseOff = s'.baseOff ∧
    packing.hdr0.extractLsb' 0 28 = s'.hdr0.extractLsb' 0 28 ∧ packing.hdr1 = s'.hdr1 ∧
    packing.hdr2.extractLsb' 16 16 = s'.hdr2.extractLsb' 16 16 ∧ packing.hdr3 = s'.hdr3 ∧
    packing.hdr4 = s'.hdr4 ∧ packing.headerBytes = 20 ∧ packing.buf.wf = true :=
  ⟨nextWith_spec (by decide), nextWith_spec (by decide), by decide, by decide, by decide, by decide,
    by decide, by decide, by decide, by decide⟩

/-- A header of exactly LEN bytes. -/
theorem witness_DecodeUnpacksHeader :
    let s := received 20
    s.baseOff + s.lenBytes ≤ s.bufBytes ∧ 20 + ([] : List Byte).length =
      4 * ((0x45000014#32 : Word).extractLsb' 24 4).toNat ∧ 20 + ([] : List Byte).length = s.lenBytes ∧
    s.buf.holds s.baseOff (headerOf 0x45000014#32 0#32 0x0000BAEB#32 0#32 0#32 []) := by decide

/-- BASE + LEN one past the buffer, LEN 19, HLEN 4, and a 24-byte header with LEN 23. -/
theorem witness_DecodeRaisesErrors :
    (let s := block 45 20 0#32 0 []
     s.baseOff + s.lenBytes > s.bufBytes) ∧
    (received 19).baseOff + (received 19).lenBytes ≤ (received 19).bufBytes ∧
    (received 19).lenBytes < 20 ∧
    (let s := block 0 20 0#32 0 [0x44#8]
     s.baseOff + s.lenBytes ≤ s.bufBytes ∧ 20 ≤ s.lenBytes ∧ s.buf.byte s.baseOff = some 0x44#8 ∧
       hlenOf 0x44#8 < 5) ∧
    (let s := block 0 23 0#32 0 [0x46#8]
     s.baseOff + s.lenBytes ≤ s.bufBytes ∧ 20 ≤ s.lenBytes ∧ s.buf.byte s.baseOff = some 0x46#8 ∧
       5 ≤ hlenOf 0x46#8 ∧ 4 * hlenOf 0x46#8 > s.lenBytes) := by decide

/-- A DECODE without error under STRICT 1 and under STRICT 0, and one with an error. -/
theorem witness_AcceptFollowsStrict :
    (let s := acceptCommand 3#32 (received 20)
     s.Inv ∧ s.busyFlag = true ∧ s.strict = true ∧
       nextWith (exec .decode s) (fun t => t.errField == 0#4) = true) ∧
    (let s := acceptCommand 3#32 { received 24 with ctrl := 0#32 }
     s.Inv ∧ s.busyFlag = true ∧ s.strict = false ∧
       nextWith (exec .decode s) (fun t => t.errField == 0#4) = true) ∧
    (let s := acceptCommand 3#32 (received 19)
     s.Inv ∧ s.busyFlag = true ∧ nextWith (exec .decode s) (fun t => t.errField != 0#4) = true) :=
  ⟨by decide, by decide, by decide⟩

/-- V-D10 and V-D11. -/
theorem witness_NegativeZeroIsRejected :
    (let s := negativeZero 0xFF#8
     s.baseOff + s.lenBytes ≤ s.bufBytes ∧
       20 + ([] : List Byte).length = 4 * ((0x45000014#32 : Word).extractLsb' 24 4).toNat ∧
       20 + ([] : List Byte).length ≤ s.lenBytes ∧
       s.buf.holds s.baseOff (headerOf 0x45000014#32 0#32 0x4011FFFF#32 0xC0A80001#32 0xC0A8F987#32 []) ∧
       onesSum (headerOf 0x45000014#32 0#32 (clearChecksum 0x4011FFFF#32) 0xC0A80001#32
         0xC0A8F987#32 []) = 0xFFFF#16 ∧
       (0x4011FFFF#32 : Word).extractLsb' 0 16 = 0xFFFF#16) ∧
    (let s := negativeZero 0x00#8
     s.baseOff + s.lenBytes ≤ s.bufBytes ∧
       s.buf.holds s.baseOff (headerOf 0x45000014#32 0#32 0x40110000#32 0xC0A80001#32 0xC0A8F987#32 []) ∧
       onesSum (headerOf 0x45000014#32 0#32 (clearChecksum 0x40110000#32) 0xC0A80001#32
         0xC0A8F987#32 []) = 0xFFFF#16 ∧
       (0x40110000#32 : Word).extractLsb' 0 16 = 0x0000#16) := by decide

/-- k = 0, and the five payload bytes of P2's length. -/
theorem witness_PayloadStartsAtTwenty :
    (let s := received 20
     s.baseOff + s.lenBytes ≤ s.bufBytes ∧ (0x45000014#32 : Word).extractLsb' 24 4 = 5#4 ∧
       s.lenBytes = 20 + 0 ∧ ((0x45000014#32 : Word).extractLsb' 0 16).toNat = 20 + 0 ∧
       s.buf.holds s.baseOff (headerOf 0x45000014#32 0#32 0x0000BAEB#32 0#32 0#32 [])) ∧
    (let s := block 0 25 0#32 0 (headerOf 0x45000019#32 0#32 0#32 0#32 0#32 [])
     s.baseOff + s.lenBytes ≤ s.bufBytes ∧ (0x45000019#32 : Word).extractLsb' 24 4 = 5#4 ∧
       s.lenBytes = 20 + 5 ∧ ((0x45000019#32 : Word).extractLsb' 0 16).toNat = 20 + 5 ∧
       s.buf.holds s.baseOff (headerOf 0x45000019#32 0#32 0#32 0#32 0#32 [])) := by decide

/-- A payload byte replaced. -/
theorem witness_DecodeIgnoresPayloadBytes :
    let s := received 24
    let m := s.buf.write 23 0xEE#8
    (∀ first, s.buf.byte s.baseOff = some first →
      ∀ k, k < max 1 (4 * hlenOf first) → m.byte (s.baseOff + k) = s.buf.byte (s.baseOff + k)) ∧
    m ≠ s.buf ∧ ∃ t, exec .decode s = .next t ∧ (t.errField == 0#4) = true := by
  intro s m
  refine ⟨fun first h => ?_, by decide, nextWith_spec (by decide)⟩
  have hs : s.buf.byte s.baseOff = some 0x45#8 := by decide
  obtain rfl : 0x45#8 = first := Option.some.inj (hs.symm.trans h)
  decide

/-- V-E1's header packed at offset 0, and a received state with those bytes. -/
theorem witness_EncodeDecodeRoundTrip :
    let s := block 0 0 0x05000014#32 0 []
    let u := received 20
    ∃ t, exec .encode s = .next t ∧
      (t.errField == 0#4 && decide (s.baseOff + s.tlenField.toNat ≤ s.bufBytes) &&
        u.bufSize == t.bufSize && u.base == t.base && u.lenField == s.tlenField &&
        decide (∀ k, k < s.headerBytes →
          u.buf.byte (s.baseOff + k) = t.buf.byte (s.baseOff + k))) = true :=
  nextWith_spec (by decide)

theorem witness_IllegalWordEndsWithErrorOne :
    legalWord 0x00000004#32 = false ∧ (acceptCommand 4#32 State.reset).busyFlag = true ∧
    (acceptCommand 4#32 State.reset).pend = some 0x00000004#32 := by decide

/-- One completion for each row of R118's order. -/
theorem witness_ErrorsFollowPriority :
    nextWith (exec (.illegal 0#32) State.reset) (fun t => t.errField == 1#4) = true ∧
    nextWith (exec .csum (block 63 2 0#32 0 [])) (fun t => t.errField == 2#4) = true ∧
    nextWith (exec .encode (block 45 0 0x05000013#32 0 [])) (fun t => t.errField == 6#4) = true ∧
    nextWith (exec .decode (block 63 2 0#32 0 [])) (fun t => t.errField == 2#4) = true ∧
    nextWith (exec .decode (received 20)) (fun t => t.errField == 0#4) = true := by decide

theorem witness_FailedCommandChangesOnlyStatus :
    ∃ t, exec .decode (received 19) = .next t ∧ (t.errField != 0#4) = true :=
  nextWith_spec (by decide)

theorem witness_CheckFlagsComeFromDecode :
    (let s := acceptCommand 1#32 State.reset
     s.Inv ∧ s.busyFlag = true ∧ Instr.csum ≠ .decode ∧ nextWith (exec .csum s) (fun _ => true) = true) ∧
    (let s := acceptCommand 3#32 (received 19)
     s.Inv ∧ s.busyFlag = true ∧ nextWith (exec .decode s) (fun t => t.errField != 0#4) = true) := by
  decide

theorem witness_CompletedCommandLeavesIdle :
    ∃ t, exec .encode packing = .next t ∧ (t.errField == 0#4) = true := nextWith_spec (by decide)

/-- A fault of each command that reads the buffer, at the first byte of its region. -/
theorem witness_EngineFaultsOnlyOnUnwrittenBytes :
    isFault (exec .csum (block 0 1 0#32 0 [])) = true ∧
    isFault (exec .encode (block 0 0 0x06000018#32 0 [])) = true ∧
    isFault (exec .decode (block 0 20 0#32 0 [])) = true ∧
    isFault (exec .decode (block 0 20 0#32 0 [0x45#8])) = true := by decide

/-- The longest region. -/
theorem witness_AccumulatorNeverOverflows : (List.replicate 65535 0xFF#8).length ≤ 65535 := by
  rw [List.length_replicate]

theorem witness_ZeroSumIffAllBytesZero :
    [0x00#8, 0x00#8, 0x00#8].length ≤ 65535 ∧ [0xFF#8, 0xFF#8].length ≤ 65535 := by decide

theorem witness_HostOrderWritesSameBytes :
    [0x12#8, 0x34#8, 0x56#8].length ≤ 65535 ∧ [0x12#8, 0x34#8].length ≤ 65535 := by decide

theorem witness_ByteSwapSwapsSum :
    [0x12#8, 0x34#8].length ≤ 65535 ∧ [0x12#8, 0x34#8].length % 2 = 0 := by decide

theorem witness_OddLengthPadsWithZero : [0xAB#8].length % 2 = 1 := by decide

theorem witness_WordOrderDoesNotMatter : [0x1234#16, 0x5678#16].Perm [0x5678#16, 0x1234#16] :=
  .swap _ _ _

theorem witness_EvenSplitAddsSums :
    ([0x12#8, 0x34#8] ++ [0x56#8]).length ≤ 65535 ∧ [0x12#8, 0x34#8].length % 2 = 0 := by decide

/-- Both parities, and the longest odd and even sequences. -/
theorem witness_AppendedChecksumSumsToOnes :
    (List.replicate 65532 0xFF#8).length + 3 ≤ 65535 ∧ (List.replicate 65532 0xFF#8).length % 2 = 0 ∧
    (List.replicate 65531 0xFF#8).length + 3 ≤ 65535 ∧ (List.replicate 65531 0xFF#8).length % 2 = 1 := by
  simp only [List.length_replicate]
  decide

/-- One lane and all lanes of a CMD write, on the idle and on the busy block. -/
theorem witness_CommandWriteIsAccepted :
    inWindow 0x00010#17 = false ∧ wordOffset 0x00010#17 = 0x10 ∧ wordOffset 0x00013#17 = 0x10 ∧
    0x1#4 ≠ 0#4 ∧ State.reset.busyFlag = false ∧ (acceptCommand 0#32 State.reset).busyFlag = true := by
  decide

theorem witness_BusyDiscardsWrites :
    (acceptCommand 0#32 State.reset).busyFlag = true ∧ 0x8#4 ≠ 0#4 ∧ inWindow 0x10000#17 = true ∧
    inWindow 0x1FFFF#17 = true ∧
    (inWindow 0x00008#17 = false ∧ wordOffset 0x00008#17 ∈ [0x08, 0x10, 0x14, 0x18, 0x24, 0x28, 0x2C, 0x30, 0x34]) ∧
    (inWindow 0x00034#17 = false ∧ wordOffset 0x00034#17 ∈ [0x08, 0x10, 0x14, 0x18, 0x24, 0x28, 0x2C, 0x30, 0x34]) ∧
    (inWindow 0x00020#17 = false ∧ wordOffset 0x00020#17 ∈ [0x00, 0x04, 0x1C, 0x20]) ∧
    (inWindow 0x00038#17 = false ∧ 0x38 ≤ wordOffset 0x00038#17) ∧
    (inWindow 0x0FFFF#17 = false ∧ 0x38 ≤ wordOffset 0x0FFFF#17) := by decide

theorem witness_StrobedWriteTakesWritableBits :
    0x2#4 ≠ 0#4 ∧ State.reset.busyFlag = false ∧
    (inWindow 0x00008#17 = false ∧ wordOffset 0x00008#17 = 0x08) ∧
    (inWindow 0x00014#17 = false ∧ wordOffset 0x00014#17 = 0x14) ∧
    (inWindow 0x00018#17 = false ∧ wordOffset 0x00018#17 = 0x18) ∧
    (inWindow 0x00024#17 = false ∧ wordOffset 0x00024#17 = 0x24) ∧
    (inWindow 0x00028#17 = false ∧ wordOffset 0x00028#17 = 0x28) ∧
    (inWindow 0x0002C#17 = false ∧ wordOffset 0x0002C#17 = 0x2C) ∧
    (inWindow 0x00030#17 = false ∧ wordOffset 0x00030#17 = 0x30) ∧
    (inWindow 0x00034#17 = false ∧ wordOffset 0x00034#17 = 0x34) := by decide

theorem witness_ReadOnlyAddressesIgnoreWrites :
    (inWindow 0x00000#17 = false ∧ wordOffset 0x00000#17 ∈ [0x00, 0x04, 0x1C, 0x20]) ∧
    (inWindow 0x00020#17 = false ∧ wordOffset 0x00020#17 ∈ [0x00, 0x04, 0x1C, 0x20]) ∧
    (inWindow 0x0FFFC#17 = false ∧ 0x38 ≤ wordOffset 0x0FFFC#17) := by decide

theorem witness_StatusWriteClearsOnOne :
    inWindow 0x0000C#17 = false ∧ wordOffset 0x0000C#17 = 0x0C ∧ 0x2#4 ≠ 0#4 := by decide

/-- The first byte of the first present word and the last byte of the last present word of a 64-byte
buffer. -/
theorem witness_WindowWriteStoresLanes :
    (block 0 0 0#32 0 []).busyFlag = false ∧
    (inWindow 0x10000#17 = true ∧ (0x8#4 : Strobe).getLsbD 3 = true ∧
      wordOffset 0x10000#17 + 3 - 3 = 0 ∧ 0 < (block 0 0 0#32 0 []).bufBytes) ∧
    (inWindow 0x1003C#17 = true ∧ (0x1#4 : Strobe).getLsbD 0 = true ∧
      wordOffset 0x1003C#17 + 3 - 0 + 1 = (block 0 0 0#32 0 []).bufBytes) := by decide

theorem witness_WindowWordReadsBack :
    (block 0 0 0#32 0 []).busyFlag = false ∧
    (inWindow 0x10000#17 = true ∧ wordOffset 0x10000#17 < (block 0 0 0#32 0 []).bufBytes) ∧
    (inWindow 0x1003C#17 = true ∧ wordOffset 0x1003C#17 < (block 0 0 0#32 0 []).bufBytes) ∧
    (inWindow 0x1FFFF#17 = true ∧ wordOffset 0x1FFFF#17 < State.reset.bufBytes) := by decide

/-- The first absent word of a 64-byte buffer. -/
theorem witness_AbsentWindowReadsZero :
    (block 0 0 0#32 0 []).busyFlag = false ∧ inWindow 0x10040#17 = true ∧
    (block 0 0 0#32 0 []).bufBytes = wordOffset 0x10040#17 := by decide

theorem witness_WindowReadIsBigEndian :
    inWindow 0x10000#17 = true ∧ wordOffset 0x10000#17 < (received 20).bufBytes ∧
    (received 20).buf.holds (wordOffset 0x10000#17) [0x45#8, 0x00#8, 0x00#8, 0x14#8] ∧
    (received 20).buf.holds (wordOffset 0x10000#17) (bytesOfWord 0x45000014#32) := by decide

theorem witness_RegisterMapReads :
    inWindow 0x00000#17 = false ∧ wordOffset 0x00000#17 = 0x00 ∧ wordOffset 0x00004#17 = 0x04 ∧
    wordOffset 0x00008#17 = 0x08 ∧ wordOffset 0x0000C#17 = 0x0C ∧ wordOffset 0x00010#17 = 0x10 ∧
    wordOffset 0x00014#17 = 0x14 ∧ wordOffset 0x00018#17 = 0x18 ∧ wordOffset 0x0001C#17 = 0x1C ∧
    wordOffset 0x00020#17 = 0x20 ∧ wordOffset 0x00024#17 = 0x24 ∧ wordOffset 0x00028#17 = 0x28 ∧
    wordOffset 0x0002C#17 = 0x2C ∧ wordOffset 0x00030#17 = 0x30 ∧ wordOffset 0x00034#17 = 0x34 ∧
    0x38 ≤ wordOffset 0x00038#17 := by decide

theorem witness_LowAddressBitsAreIgnored :
    (0x10000#17 : HostAddr).extractLsb' 2 15 = (0x10003#17 : HostAddr).extractLsb' 2 15 := by decide

theorem witness_ReadsHaveNoSideEffect :
    { State.reset with events := [.read 0x1C#17, .read 0x1C#17, .engine] }.events =
      .read 0x1C#17 :: .read 0x1C#17 :: [.engine] := by decide

/-- A CMD write on the idle block, and a command that completes. -/
theorem witness_BusyRisesOnlyByAcceptance :
    inWindow 0x00010#17 = false ∧ wordOffset 0x00010#17 = 0x10 ∧ 0x1#4 ≠ 0#4 ∧
    nextWith (exec .encode packing) (fun _ => true) = true := by decide

/-- A STATUS write that clears DONE, and a command that completes. -/
theorem witness_DoneRisesOnlyByCompletion :
    ({ State.reset with status := 2#32 } : State).doneFlag = true ∧
    inWindow 0x0000C#17 = false ∧ wordOffset 0x0000C#17 = 0x0C ∧ (2#32 : Word).getLsbD 1 = true ∧
    (0x1#4 : Strobe).getLsbD 0 = true ∧
    nextWith (exec (.illegal 0#32) State.reset) (fun _ => true) = true := by decide

/-- Both sides of the condition. -/
theorem witness_HostCannotWriteResults :
    (inWindow 0x00010#17 = false ∧ wordOffset 0x00010#17 = 0x10 ∧ 0x1#4 ≠ 0#4 ∧
      State.reset.busyFlag = false) ∧ (acceptCommand 1#32 State.reset).busyFlag = true := by decide

/-- The ID and CFG addresses, and a block with a command pending. -/
theorem witness_ResetEventRestoresReset :
    (acceptCommand 2#32 packing).busyFlag = true ∧ inWindow 0x00000#17 = false ∧
    wordOffset 0x00000#17 = 0x00 ∧ inWindow 0x00004#17 = false ∧ wordOffset 0x00004#17 = 0x04 := by
  decide

theorem witness_InterruptRisesAndFalls :
    (let s : State := { State.reset with ctrl := 3#32, status := 2#32 }
     s.irq = true ∧ s.ctrl.getLsbD 0 = true ∧ s.busyFlag = false ∧
       nextWith (exec .csum s) (fun t => t.irq) = true) ∧
    (inWindow 0x0000C#17 = false ∧ wordOffset 0x0000C#17 = 0x0C) ∧
    (inWindow 0x00008#17 = false ∧ wordOffset 0x00008#17 = 0x08) ∧
    (inWindow 0x00010#17 = false ∧ wordOffset 0x00010#17 = 0x10) ∧
    (0x2#32 : Word).getLsbD 1 = true ∧ (0x2#32 : Word).getLsbD 0 = false ∧
    (0x1#4 : Strobe).getLsbD 0 = true ∧ 0x1#4 ≠ 0#4 := by decide

/-- The invariant met while a command is pending, and a step from there. -/
theorem witness_StepKeepsInvariant :
    (acceptCommand 2#32 packing).Inv ∧
    ∃ t, step (acceptCommand 2#32 packing) = .next t ∧ (t.status == 2#32) = true :=
  ⟨by decide, nextWith_spec (by decide)⟩

/-- A pending ENCODE under a discarded write, a STATUS write and a read. -/
def waiting : State :=
  { acceptCommand 2#32 packing with
    events := [.write 0x24#17 0#32 0xF#4, .write 0x0C#17 0x1000#32 0xF#4, .read 0x0C#17] }

theorem witness_BusyFreezesOperands :
    waiting.busyFlag = true ∧ (∀ e ∈ waiting.events, e.isBus = true) ∧
    waiting.events.length = 3 := by decide

/-- A pending command that completes, and one that faults. -/
theorem witness_OutcomeIndependentOfEngineTiming :
    waiting.busyFlag = true ∧ waiting.pend = some 2#32 ∧ (∀ e ∈ waiting.events, e.isBus = true) ∧
    (∃ t, step { waiting with events := [] } = .next t ∧ (t.errField == 0#4) = true) ∧
    ∃ f, step { acceptCommand 1#32 (block 0 1 0#32 0 []) with events := [] } = .fault f :=
  ⟨by decide, by decide, by decide, nextWith_spec (by decide), isFault_spec (by decide)⟩

/-- A pending ENCODE that reads no unwritten byte, and a pending CSUM that does. -/
theorem witness_AcceptedCommandCompletes :
    (waiting.busyFlag = true ∧ waiting.pend = some 2#32 ∧ Event.reset ∉ waiting.events ∧
      waiting.engineSafe) ∧
    (let s := acceptCommand 1#32 (block 0 1 0#32 0 [])
     s.busyFlag = true ∧ s.pend = some 1#32 ∧ Event.reset ∉ s.events ∧ ¬ s.engineSafe) := by
  refine ⟨⟨by decide, by decide, by decide, fun f hf => ?_⟩, by decide, by decide, by decide,
    fun hs => ?_⟩
  · obtain ⟨t, ht, -⟩ :=
      nextWith_spec (o := engineTurn waiting) (p := fun t => t.errField == 0#4) (by decide)
    rw [ht] at hf
    cases hf
  · obtain ⟨f, hf⟩ :=
      isFault_spec (o := engineTurn (acceptCommand 1#32 (block 0 1 0#32 0 []))) (by decide)
    exact hs f hf

end Sys2Proof.Tests
end

namespace Sys2Proof.Machine

/-- ERR tells the two kinds of completion apart: a command that leaves a code there raised an error
(R10), because every command that succeeds leaves 0 (10_state.md R24). -/
theorem exec_raises_of_errField_ne_zero {i : Instr} {s t : State} (h : exec i s = .next t)
    (herr : t.errField ≠ 0#4) : ∃ e, t = raiseError e s := by
  rcases exec_next h with hraise | ⟨-, bs, rfl⟩ | ⟨-, -, opts, -, rfl⟩ | ⟨-, header, rfl⟩
  · exact hraise
  · exact absurd (succeed_errField _) herr
  · exact absurd (succeed_errField _) herr
  · exact absurd (succeed_errField _) herr

/-- Settles O22: whichever command it was, it ended in `raiseError`, which writes STATUS alone. -/
theorem failedCommandChangesOnlyStatus : Obligations.FailedCommandChangesOnlyStatus := by
  intro i s t h herr
  obtain ⟨e, rfl⟩ := exec_raises_of_errField_ne_zero h herr
  rw [raiseError_errField]
  exact raiseError_ends e s

end Sys2Proof.Machine

namespace Sys2Proof.Machine

/-! SUPPORT. Fields of a word by their bits, and what a strobed write does to a register's fields. -/

/-- A field depends on the bits it spans and on no other. -/
theorem extract_congr {v w : Word} {lo len : Nat}
    (h : ∀ j, lo ≤ j → j < lo + len → v.getLsbD j = w.getLsbD j) :
    v.extractLsb' lo len = w.extractLsb' lo len := by
  apply BitVec.eq_of_getLsbD_eq
  intro j hj
  rw [extract_getLsbD _ _ _ _ hj, extract_getLsbD _ _ _ _ hj, h _ (by omega) (by omega)]

/-- A field is 0 exactly when each of its bits is. -/
theorem extract_eq_zero_iff {w : Word} {lo len : Nat} :
    w.extractLsb' lo len = 0#len ↔ ∀ j, lo ≤ j → j < lo + len → w.getLsbD j = false := by
  constructor
  · intro h j hlo hhi
    have hj : (w.extractLsb' lo len).getLsbD (j - lo) = w.getLsbD (lo + (j - lo)) :=
      extract_getLsbD w lo len (j - lo) (by omega)
    rwa [h, BitVec.getLsbD_zero, Nat.add_sub_cancel' hlo, eq_comm] at hj
  · intro h
    apply BitVec.eq_of_getLsbD_eq
    intro j hj
    rw [extract_getLsbD _ _ _ _ hj, BitVec.getLsbD_zero, h _ (by omega) (by omega)]

/-- A field that reads 0 and is not writable stays 0 (10_state.md R16, R39). -/
theorem strobedWrite_extract_eq_zero {old w : Word} {lo len : Nat} (hlen : lo + len ≤ 32)
    (hold : old.extractLsb' lo len = 0#len) (hw : w.extractLsb' lo len = 0#len)
    (d : Word) (st : Strobe) : (strobedWrite old d w st).extractLsb' lo len = 0#len := by
  rw [extract_eq_zero_iff] at *
  intro j hlo hhi
  rw [strobedWrite_getLsbD _ _ _ _ _ (by omega), hold j hlo hhi, hw j hlo hhi]
  simp

/-- RESULT's low half is the complement of its high half (10_state.md R30). -/
theorem resultWord_complement (sum : Half) :
    (resultWord sum).extractLsb' 0 16 = ~~~((resultWord sum).extractLsb' 16 16) := by
  have hlow : (resultWord sum).extractLsb' 0 16 = ~~~sum :=
    (extract_append_low sum (~~~sum) 0 16 (by omega)).trans (BitVec.extractLsb'_eq_self)
  have hhigh : (resultWord sum).extractLsb' 16 16 = sum :=
    (extract_append_high sum (~~~sum) 16 16 (by omega)).trans (BitVec.extractLsb'_eq_self)
  rw [hlow, hhigh]

/-- Replacing the checksum bytes keeps a header's length. -/
@[simp] theorem length_putChecksum (h : List Byte) (c : Half) :
    (putChecksum h c).length = h.length := by
  simp [putChecksum]

/-- ENCODE packs twenty fixed bytes (41_codec.md R97). -/
@[simp] theorem length_packFields (s : State) : (packFields s).length = 20 := rfl

/-! SUPPORT. What every command that completes leaves (60_exceptions.md R121). -/

/-- Outside the check flags and ERR, a command that completes clears BUSY, sets DONE and changes no
other bit of STATUS. -/
theorem exec_status_getLsbD {i : Instr} {s t : State} (h : exec i s = .next t) {j : Nat}
    (hj : j < 4 ∨ 12 ≤ j) :
    t.status.getLsbD j =
      if j = 0 then false else if j = 1 then true else s.status.getLsbD j := by
  have herr : ¬ (4 ≤ j ∧ j < 8) := by omega
  rcases exec_next h with ⟨e, rfl⟩ | ⟨-, bs, rfl⟩ | ⟨-, -, opts, -, rfl⟩ | ⟨-, header, rfl⟩
  · rw [raiseError_status_getLsbD, if_neg herr]
  · rw [succeed_status_getLsbD, if_neg herr]
  · rw [succeed_status_getLsbD, if_neg herr, encodeWrites_status]
  · have h8 : j ≠ 8 := by omega
    have h9 : j ≠ 9 := by omega
    have h10 : j ≠ 10 := by omega
    have h11 : j ≠ 11 := by omega
    rw [succeed_status_getLsbD, if_neg herr, decodeWrites_status, writeChecks_status_getLsbD]
    simp only [h8, h9, h10, h11, if_false, unpackFields_status]

theorem exec_busyFlag {i : Instr} {s t : State} (h : exec i s = .next t) : t.busyFlag = false :=
  exec_status_getLsbD h (.inl (by omega))

theorem exec_doneFlag {i : Instr} {s t : State} (h : exec i s = .next t) : t.doneFlag = true :=
  exec_status_getLsbD h (.inl (by omega))

theorem exec_wbusyFlag {i : Instr} {s t : State} (h : exec i s = .next t) :
    t.wbusyFlag = s.wbusyFlag :=
  exec_status_getLsbD h (.inr (by omega))

/-- No command writes CTRL, BASE, LEN, the size parameter or the schedule, and none leaves a command
pending. -/
theorem exec_frame {i : Instr} {s t : State} (h : exec i s = .next t) :
    t.pend = none ∧ t.ctrl = s.ctrl ∧ t.base = s.base ∧ t.len = s.len ∧
      t.bufSize = s.bufSize ∧ t.events = s.events := by
  rcases exec_next h with ⟨e, rfl⟩ | ⟨-, bs, rfl⟩ | ⟨-, -, opts, -, rfl⟩ | ⟨-, header, rfl⟩ <;>
    simp

/-- The interrupt output after completion is CTRL.IE (10_state.md R35). -/
theorem exec_irq {i : Instr} {s t : State} (h : exec i s = .next t) : t.irq = s.ie := by
  obtain ⟨-, hctrl, -⟩ := exec_frame h
  simp [State.irq, State.ie, hctrl, exec_doneFlag h]

end Sys2Proof.Machine

namespace Sys2Proof.Machine

/-! SUPPORT. The invariant by its parts, and what each operation does to each part. -/

/-- The buffer's part of the invariant (10_state.md R32). -/
structure BufOk (m : Memory) (size : BufSize) : Prop where
  /-- The canonical form. -/
  wf : m.wf = true
  /-- Nothing is written past BUF_BYTES. -/
  below : m.below size.bytes

/-- The registers' part of the invariant: the reserved bits that read 0 (R16), and RESULT (R30). -/
structure RegsOk (ctrl base len payload result : Word) : Prop where
  ctrl : ctrl.extractLsb' 2 30 = 0#30
  base : base.extractLsb' 16 16 = 0#16
  len : len.extractLsb' 16 16 = 0#16
  payload : payload.extractLsb' 8 8 = 0#8
  /-- A sum beside its complement, or still 0. -/
  result : result = 0#32 ∨ result.extractLsb' 0 16 = ~~~(result.extractLsb' 16 16)

/-- STATUS's part of the invariant (R16, R20, R23, R24, R25; 60_exceptions.md R116). -/
structure StatusOk (w : Word) : Prop where
  /-- Bits 3:2 are reserved. -/
  reservedLow : w.extractLsb' 2 2 = 0#2
  /-- Bits 31:13 are reserved. -/
  reservedHigh : w.extractLsb' 13 19 = 0#19
  /-- Never BUSY with DONE. -/
  busy_done : w.getLsbD 0 = true → w.getLsbD 1 = false
  /-- ERR is 0 while BUSY. -/
  busy_err : w.getLsbD 0 = true → w.extractLsb' 4 4 = 0#4
  /-- No check flag while BUSY or beside an error. -/
  flags : w.getLsbD 0 = true ∨ w.extractLsb' 4 4 ≠ 0#4 → w.extractLsb' 8 4 = 0#4
  /-- ERR is a code of R116. -/
  err_le : w.extractLsb' 4 4 ≤ 6#4

/-- The invariant is its three parts, and PEND present exactly while BUSY (R22). -/
theorem inv_iff (s : State) :
    s.Inv ↔ BufOk s.buf s.bufSize ∧ RegsOk s.ctrl s.base s.len s.payload s.result ∧
      StatusOk s.status ∧ s.pend.isSome = s.busyFlag := by
  constructor
  · rintro ⟨hwf, hbelow, hctrl, hlow, hhigh, hbase, hlen, hpay, hpend, hdone, herr, hflags, hle, hres⟩
    exact ⟨⟨hwf, hbelow⟩, ⟨hctrl, hbase, hlen, hpay, hres⟩,
      ⟨hlow, hhigh, hdone, herr, hflags, hle⟩, hpend⟩
  · rintro ⟨⟨hwf, hbelow⟩, ⟨hctrl, hbase, hlen, hpay, hres⟩,
      ⟨hlow, hhigh, hdone, herr, hflags, hle⟩, hpend⟩
    exact ⟨hwf, hbelow, hctrl, hlow, hhigh, hbase, hlen, hpay, hpend, hdone, herr, hflags, hle, hres⟩

/-- STATUS stays well formed when only DONE and WBUSY change and DONE does not rise. -/
theorem StatusOk.of_done_falls {v w : Word} (h : StatusOk w)
    (hdone : w.getLsbD 1 = false → v.getLsbD 1 = false)
    (hsame : ∀ j, j ≠ 1 → j ≠ 12 → v.getLsbD j = w.getLsbD j) : StatusOk v := by
  have hbusy : v.getLsbD 0 = w.getLsbD 0 := hsame 0 (by omega) (by omega)
  have field : ∀ lo len, (∀ j, lo ≤ j → j < lo + len → j ≠ 1 ∧ j ≠ 12) →
      v.extractLsb' lo len = w.extractLsb' lo len := fun lo len hne =>
    extract_congr fun j hlo hhi => hsame j (hne j hlo hhi).1 (hne j hlo hhi).2
  have herr := field 4 4 (by omega)
  have hflags := field 8 4 (by omega)
  exact {
    reservedLow := (field 2 2 (by omega)).trans h.reservedLow
    reservedHigh := (field 13 19 (by omega)).trans h.reservedHigh
    busy_done := fun hb => hdone (h.busy_done (hbusy ▸ hb))
    busy_err := by rw [hbusy, herr]; exact h.busy_err
    flags := by rw [hbusy, herr, hflags]; exact h.flags
    err_le := by rw [herr]; exact h.err_le }

/-- A discarded write keeps STATUS well formed (R26). -/
theorem StatusOk.discardWrite {s : State} (h : StatusOk s.status) :
    StatusOk (discardWrite s).status :=
  h.of_done_falls (fun hd => (discardWrite_status_getLsbD s 1).trans hd) fun j _ h12 => by
    rw [discardWrite_status_getLsbD, if_neg h12]

/-- A host write to STATUS keeps it well formed (R21). -/
theorem StatusOk.writeStatus {s : State} (h : StatusOk s.status) (d : Word) (st : Strobe) :
    StatusOk (writeStatus d st s).status :=
  h.of_done_falls (fun hd => by rw [writeStatus_status_getLsbD, if_pos rfl, hd, Bool.false_and])
    fun j h1 h12 => by rw [writeStatus_status_getLsbD, if_neg h1, if_neg h12]

/-- Acceptance leaves a well-formed STATUS (R20). -/
theorem StatusOk.acceptCommand {s : State} (h : StatusOk s.status) (w : Word) :
    StatusOk (acceptCommand w s).status := by
  have kept : ∀ lo len, (∀ j, lo ≤ j → j < lo + len → j = 2 ∨ j = 3 ∨ 12 ≤ j) →
      (Machine.acceptCommand w s).status.extractLsb' lo len = s.status.extractLsb' lo len :=
    fun lo len hne => extract_congr fun j hlo hhi => by
      have := hne j hlo hhi
      rw [acceptCommand_status_getLsbD, if_neg (by omega), if_neg (by omega), if_neg (by omega)]
  have cleared : ∀ lo len, (∀ j, lo ≤ j → j < lo + len → 4 ≤ j ∧ j < 12) →
      (Machine.acceptCommand w s).status.extractLsb' lo len = 0#len :=
    fun lo len hin => extract_eq_zero_iff.2 fun j hlo hhi => by
      have := hin j hlo hhi
      rw [acceptCommand_status_getLsbD, if_neg (by omega), if_neg (by omega), if_pos (by omega)]
  have herr := cleared 4 4 (by omega)
  exact {
    reservedLow := (kept 2 2 (by omega)).trans h.reservedLow
    reservedHigh := (kept 13 19 (by omega)).trans h.reservedHigh
    busy_done := fun _ => acceptCommand_status_getLsbD w s 1
    busy_err := fun _ => herr
    flags := fun _ => cleared 8 4 (by omega)
    err_le := by rw [herr]; decide }

/-- A completed STATUS is well formed when its code is one of R116 and no check flag stands beside an
error. -/
theorem StatusOk.of_completed {v w : Word} {code : BitVec 4} (h : CompletedStatus w v code)
    (hlow : w.extractLsb' 2 2 = 0#2) (hhigh : w.extractLsb' 13 19 = 0#19) (hcode : code ≤ 6#4)
    (hflags : code ≠ 0#4 → w.extractLsb' 8 4 = 0#4) : StatusOk v := by
  have kept : ∀ lo len, lo + len ≤ 32 → (∀ j, lo ≤ j → j < lo + len → j = 2 ∨ j = 3 ∨ 8 ≤ j) →
      v.extractLsb' lo len = w.extractLsb' lo len :=
    fun lo len hlen hne => extract_congr fun j hlo hhi => by
      have := hne j hlo hhi
      rw [h j (by omega), if_neg (by omega), if_neg (by omega), if_neg (by omega)]
  have idle : v.getLsbD 0 ≠ true := by
    rw [h 0 (by omega), if_pos rfl]
    exact Bool.false_ne_true
  have herr : v.extractLsb' 4 4 = code := by
    apply BitVec.eq_of_getLsbD_eq
    intro j hj
    rw [extract_getLsbD _ _ _ _ hj, h (4 + j) (by omega), if_neg (by omega), if_neg (by omega),
      if_pos (by omega), Nat.add_sub_cancel_left]
  exact {
    reservedLow := (kept 2 2 (by omega) (by omega)).trans hlow
    reservedHigh := (kept 13 19 (by omega) (by omega)).trans hhigh
    busy_done := fun hb => absurd hb idle
    busy_err := fun hb => absurd hb idle
    flags := fun hb => (kept 8 4 (by omega) (by omega)).trans
      (hflags (herr ▸ hb.resolve_left idle))
    err_le := by rwa [herr] }

/-- Every error code is one of R116's six. -/
theorem CmdError.code_le (e : CmdError) : e.code ≤ 6#4 := by
  cases e <;> decide

/-- An error ends in a well-formed STATUS when no check flag was set. -/
theorem StatusOk.raiseError {s : State} (h : StatusOk s.status)
    (hflags : s.status.extractLsb' 8 4 = 0#4) (e : CmdError) : StatusOk (raiseError e s).status :=
  .of_completed (raiseError_ends e s).1 h.reservedLow h.reservedHigh e.code_le fun _ => hflags

/-- A success ends in a well-formed STATUS, whatever the check flags. -/
theorem StatusOk.succeed {s : State} (hlow : s.status.extractLsb' 2 2 = 0#2)
    (hhigh : s.status.extractLsb' 13 19 = 0#19) : StatusOk (succeed s).status :=
  .of_completed (succeed_completed s) hlow hhigh (by decide) fun hne => absurd rfl hne

/-- The checks of DECODE write bits 11:8 of STATUS alone (41_codec.md R109). -/
theorem writeChecks_status_extract (s : State) (h : List Byte) {lo len : Nat}
    (hout : lo + len ≤ 8 ∨ 12 ≤ lo) :
    (writeChecks s h).status.extractLsb' lo len = s.status.extractLsb' lo len :=
  extract_congr fun j hlo hhi => by
    have h8 : j ≠ 8 := by omega
    have h9 : j ≠ 9 := by omega
    have h10 : j ≠ 10 := by omega
    have h11 : j ≠ 11 := by omega
    simp only [writeChecks_status_getLsbD, h8, h9, h10, h11, if_false]

/-- ENCODE writes inside the buffer, in canonical form (41_codec.md R104). -/
theorem BufOk.encodeWrites {s : State} (h : BufOk s.buf s.bufSize) {opts : List Byte}
    (hfit : s.baseOff + s.headerBytes ≤ s.bufBytes) (hlen : 20 + opts.length = s.headerBytes) :
    BufOk (encodeWrites s (packFields s ++ opts)).buf s.bufSize := by
  rw [encodeWrites_buf]
  refine ⟨Memory.wf_writeList h.wf _ _, Memory.below_writeList h.below ?_⟩
  rw [length_putChecksum, List.length_append, length_packFields, hlen]
  exact hfit

/-- An error keeps the invariant while a command is pending. -/
theorem raiseError_keeps_inv {s : State} (hinv : s.Inv) (hbusy : s.busyFlag = true) (e : CmdError) :
    (raiseError e s).Inv := by
  obtain ⟨hbuf, hregs, hst, -⟩ := (inv_iff s).1 hinv
  exact (inv_iff _).2 ⟨hbuf, hregs, hst.raiseError (hst.flags (.inl hbusy)) e,
    (raiseError_status_getLsbD e s 0).symm⟩

/-- A success establishes the invariant from its parts, whatever ERR and the check flags were. -/
theorem succeed_inv {s : State} (hbuf : BufOk s.buf s.bufSize)
    (hregs : RegsOk s.ctrl s.base s.len s.payload s.result)
    (hlow : s.status.extractLsb' 2 2 = 0#2) (hhigh : s.status.extractLsb' 13 19 = 0#19) :
    (succeed s).Inv :=
  (inv_iff _).2 ⟨hbuf, hregs, .succeed hlow hhigh, (succeed_status_getLsbD s 0).symm⟩

/-- Every command that completes keeps the invariant. -/
theorem exec_keeps_inv {i : Instr} {s t : State} (h : exec i s = .next t) (hinv : s.Inv)
    (hbusy : s.busyFlag = true) : t.Inv := by
  obtain ⟨hbuf, hregs, hst, -⟩ := (inv_iff s).1 hinv
  have written : ∀ (p n : Nat) (sum : Half),
      RegsOk s.ctrl s.base s.len (payloadWord p n) (resultWord sum) := fun p n sum =>
    { hregs with payload := payloadWord_reserved p n, result := .inr (resultWord_complement sum) }
  rcases exec_next h with ⟨e, rfl⟩ | ⟨-, bs, rfl⟩ | ⟨-, hfit, opts, hopts, rfl⟩ | ⟨-, header, rfl⟩
  · exact raiseError_keeps_inv hinv hbusy e
  · exact succeed_inv hbuf { hregs with result := .inr (resultWord_complement _) }
      hst.reservedLow hst.reservedHigh
  · apply succeed_inv
    · rw [encodeWrites_bufSize]
      exact hbuf.encodeWrites hfit hopts
    · rw [encodeWrites_ctrl, encodeWrites_base, encodeWrites_len, encodeWrites_payload,
        encodeWrites_result]
      exact written _ _ _
    · rw [encodeWrites_status, hst.reservedLow]
    · rw [encodeWrites_status, hst.reservedHigh]
  · apply succeed_inv
    · rwa [decodeWrites_buf, decodeWrites_bufSize]
    · rw [decodeWrites_ctrl, decodeWrites_base, decodeWrites_len, decodeWrites_payload,
        decodeWrites_result]
      exact written _ _ _
    · rw [decodeWrites_status, writeChecks_status_extract _ _ (.inl (by omega)),
        unpackFields_status, hst.reservedLow]
    · rw [decodeWrites_status, writeChecks_status_extract _ _ (.inr (by omega)),
        unpackFields_status, hst.reservedHigh]

/-- Acceptance keeps the invariant (R20). -/
theorem acceptCommand_keeps_inv {s : State} (hinv : s.Inv) (w : Word) :
    (acceptCommand w s).Inv := by
  obtain ⟨hbuf, hregs, hst, -⟩ := (inv_iff s).1 hinv
  have hbusy : (acceptCommand w s).busyFlag = true := acceptCommand_status_getLsbD w s 0
  exact (inv_iff _).2 ⟨hbuf, hregs, hst.acceptCommand w,
    by rw [hbusy, acceptCommand_pend, Option.isSome_some]⟩

/-- A discarded write keeps the invariant (R26). -/
theorem discardWrite_keeps_inv {s : State} (hinv : s.Inv) : (discardWrite s).Inv := by
  obtain ⟨hbuf, hregs, hst, hpend⟩ := (inv_iff s).1 hinv
  exact (inv_iff _).2 ⟨hbuf, hregs, hst.discardWrite,
    hpend.trans (discardWrite_status_getLsbD s 0).symm⟩

/-- A host write to STATUS keeps the invariant (R21). -/
theorem writeStatus_keeps_inv {s : State} (hinv : s.Inv) (d : Word) (st : Strobe) :
    (writeStatus d st s).Inv := by
  obtain ⟨hbuf, hregs, hst, hpend⟩ := (inv_iff s).1 hinv
  exact (inv_iff _).2 ⟨hbuf, hregs, hst.writeStatus d st,
    hpend.trans (writeStatus_status_getLsbD d st s 0).symm⟩

/-- Every host write keeps the invariant. -/
theorem busWrite_keeps_inv {s : State} (hinv : s.Inv) (a : HostAddr) (d : Word) (st : Strobe) :
    (busWrite s a d st).Inv := by
  obtain ⟨hbuf, hregs, hst, hpend⟩ := (inv_iff s).1 hinv
  cases hb : s.busyFlag with
  | true =>
    rcases busWrite_busy_cases hb a d st with e | e | e <;> rw [e]
    · exact hinv
    · exact discardWrite_keeps_inv hinv
    · exact writeStatus_keeps_inv hinv d st
  | false =>
    rcases busWrite_idle_cases hb a d st with
      e | e | e | e | e | e | e | e | e | e | e | e <;> rw [e]
    · exact hinv
    · exact writeStatus_keeps_inv hinv d st
    · exact acceptCommand_keeps_inv hinv _
    · obtain ⟨hwf, hbelow⟩ := writeWindow_wf_below hbuf.wf hbuf.below (wordOffset a) d st
      exact (inv_iff _).2 ⟨⟨hwf, hbelow⟩, hregs, hst, hpend⟩
    · exact (inv_iff _).2 ⟨hbuf, { hregs with
        ctrl := strobedWrite_extract_eq_zero (by omega) hregs.ctrl (by decide) d st }, hst, hpend⟩
    · exact (inv_iff _).2 ⟨hbuf, { hregs with
        base := strobedWrite_extract_eq_zero (by omega) hregs.base (by decide) d st }, hst, hpend⟩
    · exact (inv_iff _).2 ⟨hbuf, { hregs with
        len := strobedWrite_extract_eq_zero (by omega) hregs.len (by decide) d st }, hst, hpend⟩
    -- The field registers HDR0 to HDR4 stand in no part of the invariant.
    all_goals exact (inv_iff _).2 ⟨hbuf, hregs, hst, hpend⟩

/-- No host write changes the size parameter (00_scope.md R6). -/
@[simp] theorem busWrite_bufSize (s : State) (a : HostAddr) (d : Word) (st : Strobe) :
    (busWrite s a d st).bufSize = s.bufSize := by
  cases hb : s.busyFlag with
  | true => rcases busWrite_busy_cases hb a d st with e | e | e <;> simp [e]
  | false =>
    rcases busWrite_idle_cases hb a d st with
      e | e | e | e | e | e | e | e | e | e | e | e <;> simp [e]

/-- The reset event establishes the invariant from any state (70_reset_and_hazards.md R136). -/
theorem blockReset_inv (s : State) : (blockReset s).Inv := by
  have hbuf : BufOk [] s.bufSize := ⟨rfl, fun c hc => absurd hc List.not_mem_nil⟩
  have hregs : RegsOk 2#32 0#32 0#32 0#32 0#32 := by constructor <;> decide
  have hst : StatusOk 0#32 := by constructor <;> decide
  have hpend : (none : Option Word).isSome = (0#32 : Word).getLsbD 0 := by decide
  exact (inv_iff _).2 ⟨hbuf, hregs, hst, hpend⟩

/-- The invariant does not speak of the schedule, nor of the data the host read (log entries 1, 4). -/
theorem inv_of_host_fields {s : State} (hinv : s.Inv) (es : List Event) (x : Word) :
    ({ s with events := es, readData := x } : State).Inv := hinv

/-- Settles O53: a step is a host read, a host write, a reset, a command or an idle turn, and each
keeps the invariant. -/
theorem stepKeepsInvariant : Obligations.StepKeepsInvariant := by
  intro s t hinv h
  have turn : ∀ u : State, (s.events = [] ∧ u = s ∨
      ∃ es, s.events = .engine :: es ∧ u = { s with events := es }) →
      u.Inv ∧ u.bufSize = s.bufSize := by
    rintro u (⟨-, rfl⟩ | ⟨es, -, rfl⟩)
    · exact ⟨hinv, rfl⟩
    · exact ⟨inv_of_host_fields hinv es s.readData, rfl⟩
  rcases step_next h with ⟨a, es, -, rfl⟩ | ⟨a, d, st, es, -, rfl⟩ | ⟨es, -, rfl⟩ |
    ⟨u, w, hu, hw, hexec⟩ | ⟨u, hu, -, rfl⟩
  · exact ⟨inv_of_host_fields hinv es _, rfl⟩
  · exact ⟨busWrite_keeps_inv (inv_of_host_fields hinv es s.readData) a d st, by simp⟩
  · exact ⟨blockReset_inv _, rfl⟩
  · obtain ⟨huinv, husize⟩ := turn u hu
    obtain ⟨hbusy, -⟩ := pendingWord_eq_some.1 hw
    obtain ⟨-, -, -, -, hsize, -⟩ := exec_frame hexec
    exact ⟨exec_keeps_inv hexec huinv hbusy, hsize.trans husize⟩
  · exact turn _ hu

end Sys2Proof.Machine

namespace Sys2Proof.Machine

/-! Family 10_state.md: what a command leaves behind, and what a step is. -/

/-- Only a DECODE without error writes the check flags (10_state.md R25). -/
theorem exec_checkFlags_kept {i : Instr} {s t : State} (h : exec i s = .next t)
    (hi : i ≠ .decode ∨ t.errField ≠ 0#4) {j : Nat} (hlo : 8 ≤ j) (hhi : j < 12) :
    t.status.getLsbD j = s.status.getLsbD j := by
  have h0 : j ≠ 0 := by omega
  have h1 : j ≠ 1 := by omega
  have herr : ¬ (4 ≤ j ∧ j < 8) := by omega
  rcases exec_next h with ⟨e, rfl⟩ | ⟨-, bs, rfl⟩ | ⟨-, -, opts, -, rfl⟩ | ⟨hd, header, rfl⟩
  · rw [raiseError_status_getLsbD, if_neg h0, if_neg h1, if_neg herr]
  · rw [succeed_status_getLsbD, if_neg h0, if_neg h1, if_neg herr]
  · rw [succeed_status_getLsbD, if_neg h0, if_neg h1, if_neg herr, encodeWrites_status]
  · rcases hi with hi | hi
    · exact absurd hd hi
    · exact absurd (succeed_errField _) hi

/-- Settles O23: the flags are 0 while the command is pending, and it leaves them alone. -/
theorem checkFlagsComeFromDecode : Obligations.CheckFlagsComeFromDecode := by
  intro i s t hinv hbusy h hi
  obtain ⟨-, -, hst, -⟩ := (inv_iff s).1 hinv
  have clear : ∀ j, 8 ≤ j → j < 8 + 4 → t.status.getLsbD j = false := fun j hlo hhi =>
    (exec_checkFlags_kept h hi hlo hhi).trans
      (extract_eq_zero_iff.1 (hst.flags (.inl hbusy)) j hlo hhi)
  exact ⟨clear 8 (by omega) (by omega), clear 9 (by omega) (by omega),
    clear 10 (by omega) (by omega), clear 11 (by omega) (by omega)⟩

/-- Settles O24, from what completion does to STATUS and from the frame of the commands. -/
theorem completedCommandLeavesIdle : Obligations.CompletedCommandLeavesIdle := by
  intro i s t h
  obtain ⟨hpend, hctrl, hbase, hlen, hsize, hevents⟩ := exec_frame h
  exact ⟨exec_busyFlag h, exec_doneFlag h, hpend, exec_wbusyFlag h, hctrl, hbase, hlen, hsize,
    hevents, exec_irq h⟩

/-- The lanes of a word make up the word again (20_memory.md R48). -/
theorem wordOfLanes_lanes (w : Word) :
    wordOfLanes (w.extractLsb' 0 8) (w.extractLsb' 8 8) (w.extractLsb' 16 8) (w.extractLsb' 24 8) =
      w :=
  beWord_bytes w

/-- The decoder reads a word's lanes as the word (30_encoding.md R62). -/
theorem decode_lanesOfWord (w : Word) : decode (lanesOfWord w) = .ok (decodeWord w) := by
  rw [lanesOfWord, decode, wordOfLanes_lanes]

/-- Settles O4: the engine's turn performs the word in PEND, whose lanes decode to the command. -/
theorem stepRunsPendingCommand : Obligations.StepRunsPendingCommand := by
  intro s w i hbusy hpend hdec
  obtain rfl : decodeWord w = i := by simpa [decode_lanesOfWord] using hdec
  constructor
  · intro hnil
    rw [step_nil hnil, engineTurn_pending (pendingWord_eq_some.2 ⟨hbusy, hpend⟩)]
  · intro es hcons
    have hpending : pendingWord { s with events := es } = some w :=
      pendingWord_eq_some.2 ⟨hbusy, hpend⟩
    rw [step_cons hcons]
    exact engineTurn_pending hpending

/-- Settles O5: the event is taken off the schedule, which no bus operation looks at. -/
theorem stepTakesHostEvents : Obligations.StepTakesHostEvents := by
  intro s es
  refine ⟨fun a h => ?_, fun a data strb h => ?_, fun h => ?_⟩
  · rw [step_cons h, runEvent, hostRead, busRead_events]
  · rw [step_cons h, runEvent, busWrite_events]
  · rw [step_cons h]
    rfl

/-- Without BUSY no command is pending for the engine (10_state.md R22). -/
theorem pendingWord_of_idle {s : State} (h : s.busyFlag = false) : pendingWord s = none := by
  simp [pendingWord, h]

/-- Settles O6: with no command pending the engine's turn is idle. -/
theorem engineStepsOnlyWhenBusy : Obligations.EngineStepsOnlyWhenBusy := by
  intro s hidle
  refine ⟨fun hnil => ?_, fun es hcons => ?_⟩
  · rw [step_nil hnil, engineTurn_idle (pendingWord_of_idle hidle)]
  · rw [step_cons hcons]
    exact engineTurn_idle (s := { s with events := es }) (pendingWord_of_idle hidle)

end Sys2Proof.Machine

namespace Sys2Proof.Machine

/-! SUPPORT. The host address map (10_state.md R15) by register, and which registers a host write
reaches. -/

/-- The offset of a register in the host address map (R15). -/
def Reg.offset : Reg → Nat
  | .id => 0x00
  | .cfg => 0x04
  | .ctrl => 0x08
  | .status => 0x0C
  | .cmd => 0x10
  | .base => 0x14
  | .len => 0x18
  | .result => 0x1C
  | .payload => 0x20
  | .hdr0 => 0x24
  | .hdr1 => 0x28
  | .hdr2 => 0x2C
  | .hdr3 => 0x30
  | .hdr4 => 0x34

/-- An address selects a register exactly when it stands at its offset. -/
theorem regAt_eq_some_iff {a : HostAddr} {r : Reg} : regAt a = some r ↔ wordOffset a = r.offset := by
  constructor
  · intro h
    unfold regAt at h
    split at h <;> cases h <;> assumption
  · intro h
    cases r <;> simp only [regAt, h, Reg.offset]

/-- The registers that ignore every write (R16). -/
def Reg.readOnly : Reg → Bool
  | .id | .cfg | .result | .payload => true
  | _ => false

theorem writeReg_readOnly {r : Reg} (h : r.readOnly = true) (s : State) (d : Word) (st : Strobe) :
    writeReg s r d st = s := by
  cases r
  case id | cfg | result | payload => rfl
  all_goals cases h

/-- While BUSY every register write is discarded but those to STATUS and to the read-only registers
(R26). -/
theorem writeReg_busy {r : Reg} (h : r.readOnly = false) (hr : r ≠ .status) {s : State}
    (hbusy : s.busyFlag = true) (d : Word) (st : Strobe) : writeReg s r d st = discardWrite s := by
  cases r
  case status => exact absurd rfl hr
  case id | cfg | result | payload => cases h
  all_goals exact unlessBusy_busy hbusy

/-- A write to a read-only register or to a reserved address does nothing (R16, R54). -/
theorem busWrite_ignored {s : State} {a : HostAddr} (hw : inWindow a = false)
    (ha : wordOffset a ∈ [0x00, 0x04, 0x1C, 0x20] ∨ 0x38 ≤ wordOffset a) (d : Word) (st : Strobe) :
    busWrite s a d st = s := by
  by_cases hst : st = 0#4
  · rw [hst, busWrite_zero_strobe]
  · rcases ha with hmem | hres
    · have hregs : [0x00, 0x04, 0x1C, 0x20] = [Reg.id, .cfg, .result, .payload].map Reg.offset := rfl
      rw [hregs] at hmem
      obtain ⟨r, hr, hoff⟩ := List.mem_map.1 hmem
      have hro : ∀ r ∈ [Reg.id, .cfg, .result, .payload], r.readOnly = true := by decide
      rw [busWrite_reg hst hw (regAt_eq_some_iff.2 hoff.symm), writeReg_readOnly (hro r hr)]
    · exact busWrite_reserved hw (regAt_reserved hres)

/-- A strobed write to the window or to a writable register but STATUS is discarded while BUSY
(R26). -/
theorem busWrite_busy_discarded {s : State} {a : HostAddr} {st : Strobe} (hbusy : s.busyFlag = true)
    (hst : st ≠ 0#4)
    (ha : inWindow a = true ∨
      wordOffset a ∈ [0x08, 0x10, 0x14, 0x18, 0x24, 0x28, 0x2C, 0x30, 0x34]) (d : Word) :
    busWrite s a d st = discardWrite s := by
  cases hw : inWindow a with
  | true => rw [busWrite_window hst hw, unlessBusy_busy hbusy]
  | false =>
    have hmem := ha.resolve_left (by simp [hw])
    have hregs : [0x08, 0x10, 0x14, 0x18, 0x24, 0x28, 0x2C, 0x30, 0x34] =
        [Reg.ctrl, .cmd, .base, .len, .hdr0, .hdr1, .hdr2, .hdr3, .hdr4].map Reg.offset := rfl
    rw [hregs] at hmem
    obtain ⟨r, hr, hoff⟩ := List.mem_map.1 hmem
    have hwritable : ∀ r ∈ [Reg.ctrl, .cmd, .base, .len, .hdr0, .hdr1, .hdr2, .hdr3, .hdr4],
        r.readOnly = false ∧ r ≠ .status := by decide
    obtain ⟨hro, hne⟩ := hwritable r hr
    rw [busWrite_reg hst hw (regAt_eq_some_iff.2 hoff.symm), writeReg_busy hro hne hbusy]

/-- A strobed CMD write that the idle block accepts (R20). -/
abbrev State.accepts (s : State) (a : HostAddr) (st : Strobe) : Prop :=
  inWindow a = false ∧ wordOffset a = 0x10 ∧ st ≠ 0#4 ∧ s.busyFlag = false

/-- A strobed write to STATUS, which BUSY does not hold back (R21). -/
abbrev WritesStatus (a : HostAddr) (st : Strobe) : Prop :=
  inWindow a = false ∧ wordOffset a = 0x0C ∧ st ≠ 0#4

theorem busWrite_of_accepts {s : State} {a : HostAddr} {st : Strobe} (h : s.accepts a st)
    (d : Word) : busWrite s a d st = acceptCommand (d &&& strobeMask st) s := by
  obtain ⟨hw, hoff, hst, hidle⟩ := h
  exact (busWrite_reg hst hw (regAt_eq_some_iff (r := .cmd).2 hoff)).trans (unlessBusy_idle hidle)

theorem busWrite_of_writesStatus {a : HostAddr} {st : Strobe} (h : WritesStatus a st) (s : State)
    (d : Word) : busWrite s a d st = writeStatus d st s := by
  obtain ⟨hw, hoff, hst⟩ := h
  exact busWrite_reg hst hw (regAt_eq_some_iff (r := .status).2 hoff)

/-- Any other host write leaves STATUS alone, or sets WBUSY in it (R21, R26). -/
theorem busWrite_status_other {s : State} {a : HostAddr} {st : Strobe} (hacc : ¬ s.accepts a st)
    (hstatus : ¬ WritesStatus a st) (d : Word) :
    (busWrite s a d st).status = s.status ∨
      (busWrite s a d st).status = (discardWrite s).status := by
  by_cases hst : st = 0#4
  · rw [hst, busWrite_zero_strobe]
    exact .inl rfl
  have unlessBusy_status : ∀ p : State, p.status = s.status →
      (unlessBusy s p).status = s.status ∨ (unlessBusy s p).status = (discardWrite s).status := by
    intro p hp
    cases hb : s.busyFlag with
    | true => exact .inr (congrArg State.status (unlessBusy_busy hb))
    | false => exact .inl ((congrArg State.status (unlessBusy_idle hb)).trans hp)
  cases hw : inWindow a with
  | true =>
    rw [busWrite_window hst hw]
    exact unlessBusy_status _ rfl
  | false =>
    cases hr : regAt a with
    | none => exact .inl (by rw [busWrite_reserved hw hr])
    | some r =>
      have hoff := regAt_eq_some_iff.1 hr
      rw [busWrite_reg hst hw hr]
      cases r
      case status => exact absurd ⟨hw, hoff, hst⟩ hstatus
      case cmd =>
        cases hb : s.busyFlag with
        | true => exact .inr (congrArg State.status (unlessBusy_busy hb))
        | false => exact absurd ⟨hw, hoff, hst, hb⟩ hacc
      case id | cfg | result | payload => exact .inl rfl
      all_goals exact unlessBusy_status _ rfl

/-- Any other host write leaves every bit of STATUS but WBUSY. -/
theorem busWrite_status_getLsbD_other {s : State} {a : HostAddr} {st : Strobe}
    (hacc : ¬ s.accepts a st) (hstatus : ¬ WritesStatus a st) (d : Word) {j : Nat} (hj : j ≠ 12) :
    (busWrite s a d st).status.getLsbD j = s.status.getLsbD j := by
  rcases busWrite_status_other hacc hstatus d with h | h
  · rw [h]
  · rw [h, discardWrite_status_getLsbD, if_neg hj]

/-- No host write changes RESULT or PAYLOAD (R30, R31). -/
theorem busWrite_result_payload (s : State) (a : HostAddr) (d : Word) (st : Strobe) :
    (busWrite s a d st).result = s.result ∧ (busWrite s a d st).payload = s.payload := by
  cases hb : s.busyFlag with
  | true => rcases busWrite_busy_cases hb a d st with e | e | e <;> simp [e]
  | false =>
    rcases busWrite_idle_cases hb a d st with
      e | e | e | e | e | e | e | e | e | e | e | e <;> simp [e]

/-- A strobed register write is R39's formula, bit by bit. -/
theorem strobedWrite_eq_ofFnLE (old d w : Word) (st : Strobe) :
    strobedWrite old d w st = BitVec.ofFnLE fun j : Fin 32 =>
      if st.getLsbD (j.val / 8) then d.getLsbD j.val && w.getLsbD j.val else old.getLsbD j.val := by
  apply BitVec.eq_of_getLsbD_eq
  intro j hj
  rw [strobedWrite_getLsbD _ _ _ _ _ hj]
  simp [hj]

/-! Family 10_state.md: the register map and the host's writes. -/

/-- Settles O34: idle, the write is `acceptCommand` of the strobed bytes; busy, it is discarded. -/
theorem commandWriteIsAccepted : Obligations.CommandWriteIsAccepted := by
  intro s a data strb hw hoff
  refine ⟨busRead_reg hw (regAt_eq_some_iff (r := .cmd).2 hoff), fun hst hidle => ?_,
    fun hst hbusy => ?_⟩
  · rw [busWrite_of_accepts ⟨hw, hoff, hst, hidle⟩]
    refine ⟨data &&& strobeMask strb, fun j hj => ?_,
      fun j _ => acceptCommand_status_getLsbD _ s j, rfl⟩
    rw [BitVec.getLsbD_and, strobeMask_getLsbD, decide_eq_true hj, Bool.true_and]
  · rw [busWrite_busy_discarded hbusy hst (.inr (by simp [hoff]))]
    refine ⟨discardWrite_status_getLsbD s 12, fun j _ hj => ?_, rfl⟩
    rw [discardWrite_status_getLsbD, if_neg hj]

/-- Settles O35: a discarded write sets WBUSY alone, and the other addresses ignore every write. -/
theorem busyDiscardsWrites : Obligations.BusyDiscardsWrites := by
  intro s a data strb hbusy hst
  refine ⟨fun ha => ?_, fun hw ha => busWrite_ignored hw ha data strb⟩
  rw [busWrite_busy_discarded hbusy hst ha]
  exact ⟨fun j _ => discardWrite_status_getLsbD s j, rfl⟩

/-- Settles O36: on the idle block a write to one of the eight registers is its strobed write. -/
theorem strobedWriteTakesWritableBits : Obligations.StrobedWriteTakesWritableBits := by
  intro s a data strb
  refine ⟨fun hst => by rw [hst, busWrite_zero_strobe], ?_⟩
  intro hst hidle hw new
  have hnew : ∀ old w, new old w = strobedWrite old data w strb := fun old w =>
    (strobedWrite_eq_ofFnLE old data w strb).symm
  have write : ∀ r : Reg, wordOffset a = r.offset → busWrite s a data strb = writeReg s r data strb :=
    fun r hoff => busWrite_reg hst hw (regAt_eq_some_iff.2 hoff)
  simp only [hnew]
  exact ⟨fun h => (write .ctrl h).trans (unlessBusy_idle hidle),
    fun h => (write .base h).trans (unlessBusy_idle hidle),
    fun h => (write .len h).trans (unlessBusy_idle hidle),
    fun h => (write .hdr0 h).trans (unlessBusy_idle hidle),
    fun h => (write .hdr1 h).trans (unlessBusy_idle hidle),
    fun h => (write .hdr2 h).trans (unlessBusy_idle hidle),
    fun h => (write .hdr3 h).trans (unlessBusy_idle hidle),
    fun h => (write .hdr4 h).trans (unlessBusy_idle hidle)⟩

/-- Settles O37: such a write does not look at BUSY at all. -/
theorem readOnlyAddressesIgnoreWrites : Obligations.ReadOnlyAddressesIgnoreWrites :=
  fun _ _ data strb hw ha => busWrite_ignored hw ha data strb

/-- Settles O38: BUSY does not hold a STATUS write back. -/
theorem statusWriteClearsOnOne : Obligations.StatusWriteClearsOnOne := by
  intro s a data strb hw hoff hst
  rw [busWrite_of_writesStatus ⟨hw, hoff, hst⟩]
  exact ⟨fun j _ => writeStatus_status_getLsbD data strb s j, rfl⟩

/-- The reset event clears STATUS (70_reset_and_hazards.md R136). -/
@[simp] theorem blockReset_status (s : State) : (blockReset s).status = 0#32 := rfl

/-- Settles O46: BUSY is bit 0 of STATUS, which acceptance sets and every other write leaves. -/
theorem busyRisesOnlyByAcceptance : Obligations.BusyRisesOnlyByAcceptance := by
  refine ⟨fun s a data strb => ?_, fun i s t h => exec_busyFlag h, fun s => by
    simp [State.busyFlag]⟩
  by_cases hacc : s.accepts a strb
  · have hset : (busWrite s a data strb).busyFlag = true := by
      rw [busWrite_of_accepts hacc]
      exact acceptCommand_status_getLsbD _ s 0
    obtain ⟨hw, hoff, hst, -⟩ := hacc
    exact iff_of_true hset (.inr ⟨hw, hoff, hst⟩)
  · have hkept : (busWrite s a data strb).busyFlag = s.busyFlag := by
      by_cases hstatus : WritesStatus a strb
      · rw [busWrite_of_writesStatus hstatus]
        exact writeStatus_status_getLsbD data strb s 0
      · exact busWrite_status_getLsbD_other hacc hstatus data (by omega)
    rw [hkept]
    refine ⟨.inl, fun h => h.elim id fun ⟨hw, hoff, hst⟩ => ?_⟩
    by_contra hidle
    exact hacc ⟨hw, hoff, hst, by simpa using hidle⟩

/-- Settles O47: DONE is bit 1 of STATUS, which acceptance clears, a STATUS write can clear, and every
other write leaves. -/
theorem doneRisesOnlyByCompletion : Obligations.DoneRisesOnlyByCompletion := by
  refine ⟨fun s a data strb => ?_, fun i s t h => exec_doneFlag h, fun s => by
    simp [State.doneFlag]⟩
  by_cases hacc : s.accepts a strb
  · have hclear : (busWrite s a data strb).doneFlag = false := by
      rw [busWrite_of_accepts hacc]
      exact acceptCommand_status_getLsbD _ s 1
    obtain ⟨hw, hoff, hst, hidle⟩ := hacc
    exact iff_of_false (by simp [hclear]) fun ⟨_, hno⟩ => hno ⟨hw, .inr ⟨hoff, hst, hidle⟩⟩
  · by_cases hstatus : WritesStatus a strb
    · have hbit : (busWrite s a data strb).doneFlag =
          (s.doneFlag && !(data.getLsbD 1 && strb.getLsbD 0)) := by
        rw [busWrite_of_writesStatus hstatus]
        exact writeStatus_status_getLsbD data strb s 1
      obtain ⟨hw, hoff, -⟩ := hstatus
      rw [hbit]
      simp [hw, hoff, imp_iff_not_or]
    · have hkept : (busWrite s a data strb).doneFlag = s.doneFlag :=
        busWrite_status_getLsbD_other hacc hstatus data (by omega)
      rw [hkept]
      refine ⟨fun h => ⟨h, ?_⟩, fun h => h.1⟩
      rintro ⟨hw, ⟨hoff, -, hlane⟩ | ⟨hoff, hst, hidle⟩⟩
      · exact hstatus ⟨hw, hoff, fun h0 => by simp [h0] at hlane⟩
      · exact hacc ⟨hw, hoff, hst, hidle⟩

/-- Settles O48: ERR and the check flags are bits 11:4 of STATUS, which acceptance clears and every
other write leaves. -/
theorem hostCannotWriteResults : Obligations.HostCannotWriteResults := by
  intro s a data strb
  obtain ⟨hresult, hpayload⟩ := busWrite_result_payload s a data strb
  refine ⟨hresult, hpayload, ?_⟩
  split_ifs with hacc
  · rw [busWrite_of_accepts hacc]
    refine extract_eq_zero_iff.2 fun j hlo hhi => ?_
    rw [acceptCommand_status_getLsbD, if_neg (by omega), if_neg (by omega), if_pos (by omega)]
  · refine extract_congr fun j hlo hhi => ?_
    by_cases hstatus : WritesStatus a strb
    · rw [busWrite_of_writesStatus hstatus, writeStatus_status_getLsbD, if_neg (by omega),
        if_neg (by omega)]
    · exact busWrite_status_getLsbD_other hacc hstatus data (by omega)

/-- IRQ is 0 where DONE is (R35). -/
theorem irq_of_done_clear {s : State} (h : s.doneFlag = false) : s.irq = false := by
  rw [State.irq, h, Bool.and_false]

/-- Settles O51: each of the four falls clears DONE or IE. -/
theorem interruptRisesAndFalls : Obligations.InterruptRisesAndFalls := by
  refine ⟨fun s => rfl, fun i s t h hie => (exec_irq h).trans hie,
    fun s a data strb hw => ⟨fun hoff hd hlane => ?_, fun hidle hoff hd hlane => ?_,
      fun hidle hoff hst => ?_⟩, fun s => irq_of_done_clear (by simp [State.doneFlag])⟩
  · have hst : strb ≠ 0#4 := fun h0 => by simp [h0] at hlane
    rw [busWrite_of_writesStatus ⟨hw, hoff, hst⟩]
    apply irq_of_done_clear
    rw [State.doneFlag, writeStatus_status_getLsbD, if_pos rfl, hd, hlane, Bool.and_true,
      Bool.not_true, Bool.and_false]
  · have hst : strb ≠ 0#4 := fun h0 => by simp [h0] at hlane
    have hctrl : busWrite s a data strb =
        { s with ctrl := strobedWrite s.ctrl data 0x00000003#32 strb } :=
      (busWrite_reg hst hw (regAt_eq_some_iff (r := .ctrl).2 hoff)).trans (unlessBusy_idle hidle)
    have hie : (busWrite s a data strb).ie = false := by
      rw [hctrl, State.ie, strobedWrite_getLsbD _ _ _ _ _ (by omega), hd, if_pos hlane,
        Bool.false_and]
    rw [State.irq, hie, Bool.false_and]
  · rw [busWrite_of_accepts ⟨hw, hoff, hst, hidle⟩]
    exact irq_of_done_clear (acceptCommand_status_getLsbD _ s 1)

/-- CFG is log2 of BUF_BYTES, between 6 and 16 (R18). -/
theorem cfgValue_spec (s : State) :
    2 ^ s.cfgValue.toNat = s.bufBytes ∧ 6 ≤ s.cfgValue.toNat ∧ s.cfgValue.toNat ≤ 16 := by
  unfold State.cfgValue State.bufBytes
  generalize s.bufSize = k
  revert k
  decide

/-- Settles O43: outside the window a read is the register at the address, or 0 where there is none. -/
theorem registerMapReads : Obligations.RegisterMapReads := by
  intro s a hw
  have read : ∀ r : Reg, wordOffset a = r.offset → busRead s a = readReg s r := fun r hoff =>
    busRead_reg hw (regAt_eq_some_iff.2 hoff)
  refine ⟨read .id, fun hoff => ?_, read .ctrl, read .status, read .cmd, read .base, read .len,
    read .result, read .payload, read .hdr0, read .hdr1, read .hdr2, read .hdr3, read .hdr4,
    fun hres => busRead_reserved hw (regAt_reserved hres)⟩
  rw [read .cfg hoff]
  exact cfgValue_spec s

end Sys2Proof.Machine

namespace Sys2Proof.Machine

/-! SUPPORT. Noninterference: what bus accesses change while a command is pending, and that no command
looks there (10_state.md R26; 70_reset_and_hazards.md R143, R144). -/

/-- Two states that differ only in the STATUS bits `free`, the data the host read and the schedule. -/
def SameBut (free : List Nat) (s t : State) : Prop :=
  ∃ (x y : Word) (es : List Event), t = { s with status := x, readData := y, events := es } ∧
    ∀ j, j < 32 → j ∉ free → x.getLsbD j = s.status.getLsbD j

theorem SameBut.status_getLsbD {free : List Nat} {s t : State} (h : SameBut free s t) {j : Nat}
    (hj : j < 32) (hfree : j ∉ free) : t.status.getLsbD j = s.status.getLsbD j := by
  obtain ⟨x, y, es, rfl, hbits⟩ := h
  exact hbits j hj hfree

theorem SameBut.trans {free : List Nat} {s t u : State} (hst : SameBut free s t)
    (htu : SameBut free t u) : SameBut free s u := by
  obtain ⟨x, y, es, rfl, hbits⟩ := hst
  obtain ⟨x', y', es', rfl, hbits'⟩ := htu
  exact ⟨x', y', es', rfl, fun j hj hf => (hbits' j hj hf).trans (hbits j hj hf)⟩

/-- The schedule and the data the host read are free. -/
theorem SameBut.of_host_fields (free : List Nat) (s : State) (es : List Event) (y : Word) :
    SameBut free s { s with events := es, readData := y } :=
  ⟨s.status, y, es, rfl, fun _ _ _ => rfl⟩

/-- The same with the schedule known. -/
theorem SameBut.eq_of_events {free : List Nat} {s t : State} {es : List Event}
    (h : SameBut free s t) (hes : t.events = es) :
    t = { s with status := t.status, readData := t.readData, events := es } := by
  obtain ⟨x, y, es', rfl, -⟩ := h
  subst hes
  rfl

/-- DONE and WBUSY do not tell the engine which command is pending. -/
theorem SameBut.pendingWord_eq {s t : State} (h : SameBut [1, 12] s t) :
    pendingWord t = pendingWord s := by
  have hbusy : t.busyFlag = s.busyFlag := h.status_getLsbD (by omega) (by decide)
  obtain ⟨x, y, es, rfl, -⟩ := h
  rw [pendingWord, hbusy, pendingWord]

/-- One bus access while BUSY is a step that changes no more than DONE, WBUSY and the data read. -/
theorem step_bus {s : State} {e : Event} {es : List Event} (hbusy : s.busyFlag = true)
    (hev : s.events = e :: es) (hbus : e.isBus = true) :
    ∃ t, step s = .next t ∧ SameBut [1, 12] s t ∧ t.events = es := by
  rw [step_cons hev]
  cases e with
  | read a =>
    exact ⟨_, rfl, .of_host_fields _ s es (busRead { s with events := es } a), rfl⟩
  | write a d st =>
    have hsched : SameBut [1, 12] s { s with events := es } := .of_host_fields _ s es s.readData
    have hbusy' : ({ s with events := es } : State).busyFlag = true := hbusy
    refine ⟨_, rfl, ?_⟩
    rcases busWrite_busy_cases hbusy' a d st with h | h | h <;> rw [h]
    · exact ⟨hsched, rfl⟩
    · refine ⟨hsched.trans ⟨(discardWrite _).status, s.readData, es, rfl, fun j _ hj => ?_⟩, rfl⟩
      have h12 : j ≠ 12 := by rintro rfl; simp at hj
      rw [discardWrite_status_getLsbD, if_neg h12]
    · refine ⟨hsched.trans ⟨(writeStatus d st _).status, s.readData, es, rfl, fun j _ hj => ?_⟩, rfl⟩
      have h1 : j ≠ 1 := by rintro rfl; simp at hj
      have h12 : j ≠ 12 := by rintro rfl; simp at hj
      rw [writeStatus_status_getLsbD, if_neg h1, if_neg h12]
  | reset => cases hbus
  | engine => cases hbus

/-- Any bus accesses while BUSY are steps that change no more than that, whatever comes after them. -/
theorem run_bus {es rest : List Event} (hes : ∀ e ∈ es, e.isBus = true) (k : Nat) {s : State}
    (hbusy : s.busyFlag = true) (hev : s.events = es ++ rest) :
    ∃ t, core.run (es.length + k) s = core.run k t ∧ SameBut [1, 12] s t ∧ t.events = rest := by
  induction es generalizing s with
  | nil =>
    refine ⟨s, ?_, .of_host_fields _ s s.events s.readData, hev⟩
    rw [List.length_nil, Nat.zero_add]
  | cons e es ih =>
    obtain ⟨hbus, hes'⟩ := List.forall_mem_cons.1 hes
    obtain ⟨t, hstep, hst, hevt⟩ := step_bus hbusy hev hbus
    have hbusyt : t.busyFlag = true :=
      (hst.status_getLsbD (j := 0) (by omega) (by decide)).trans hbusy
    obtain ⟨u, hrun, htu, hevu⟩ := ih hes' hbusyt hevt
    refine ⟨u, ?_, hst.trans htu, hevu⟩
    rw [List.length_cons, Nat.succ_add, run_next hstep, hrun]

/-- A run of one step is the step. -/
theorem run_one (s : State) : core.run 1 s = step s := by
  have run : ∀ (m : Host.Core) (a : m.State), m.run 1 a = m.step a := fun m a => by
    unfold Host.Core.run
    cases m.step a <;> rfl
  exact run core s

/-- Bus accesses and then the engine's turn run the pending command, on a state that differs from the
first in no operand. -/
theorem run_until_engine {s : State} {w : Word} {es rest : List Event} (hbusy : s.busyFlag = true)
    (hpend : s.pend = some w) (hes : ∀ e ∈ es, e.isBus = true) (hev : s.events = es ++ rest)
    (hrest : rest = [] ∨ ∃ later, rest = .engine :: later) :
    ∃ u, core.run (es.length + 1) s = exec (decodeWord w) u ∧ SameBut [1, 12] s u ∧
      u.events = rest.tail := by
  obtain ⟨t, hrun, hst, hevt⟩ := run_bus hes 1 hbusy hev
  have turn : ∀ u, SameBut [1, 12] s u → engineTurn u = exec (decodeWord w) u := fun u hu =>
    engineTurn_pending (hu.pendingWord_eq.trans (pendingWord_eq_some.2 ⟨hbusy, hpend⟩))
  have hstep : core.run (es.length + 1) s = step t := hrun.trans (run_one t)
  rcases hrest with rfl | ⟨later, rfl⟩
  · exact ⟨t, hstep.trans ((step_nil hevt).trans (turn t hst)), hst, hevt⟩
  · have hsu : SameBut [1, 12] s { t with events := later } :=
      hst.trans (.of_host_fields _ t later t.readData)
    exact ⟨{ t with events := later }, hstep.trans ((step_cons hevt).trans (turn _ hsu)), hsu, rfl⟩

/-- Two outcomes that tell the host the same but for WBUSY, which is STATUS bit 12: next states alike,
or the same stop. -/
def SameOutcome : Result → Result → Prop
  | .next t, .next u => SameBut [12] t u
  | .fault f, .fault g => f = g
  | .refused r, .refused q => r = q
  | _, _ => False

theorem SameOutcome.of_next {t : State} {o : Result} (h : SameOutcome (.next t) o) :
    ∃ u, o = .next u ∧ SameBut [12] t u := by
  cases o with
  | next u => exact ⟨u, rfl, h⟩
  | fault g => exact h.elim
  | refused q => exact h.elim

theorem SameOutcome.of_fault {f : Fault} {o : Result} (h : SameOutcome (.fault f) o) :
    o = .fault f := by
  cases o with
  | next u => exact h.elim
  | fault g => exact congrArg _ (Eq.symm h)
  | refused q => exact h.elim

/-- Completion writes DONE, so that its old value does not show (60_exceptions.md R121). -/
theorem SameBut.complete_writeErr {s t : State} (h : SameBut [1, 12] s t) (c : BitVec 4) :
    SameBut [12] (complete (writeErr c s)) (complete (writeErr c t)) := by
  obtain ⟨x, y, es, rfl, hbits⟩ := h
  refine ⟨(complete (writeErr c { s with status := x, readData := y, events := es })).status, y, es,
    rfl, fun j hj hfree => ?_⟩
  simp only [complete_status_getLsbD, writeErr_status, setErr_getLsbD]
  split_ifs with h0 h1 herr
  · rfl
  · rfl
  · rfl
  · exact hbits j hj (by simp [h1, List.mem_singleton.not.1 hfree])

theorem SameBut.raiseError {s t : State} (h : SameBut [1, 12] s t) (e : CmdError) :
    SameOutcome (.next (raiseError e s)) (.next (raiseError e t)) := h.complete_writeErr e.code

theorem SameBut.succeed {s t : State} (h : SameBut [1, 12] s t) :
    SameOutcome (.next (succeed s)) (.next (succeed t)) := h.complete_writeErr 0#4

theorem SameBut.withResult {free : List Nat} {s t : State} (h : SameBut free s t) (r : Word) :
    SameBut free { s with result := r } { t with result := r } := by
  obtain ⟨x, y, es, rfl, hbits⟩ := h
  exact ⟨x, y, es, rfl, hbits⟩

/-- ENCODE's writes do not depend on STATUS (41_codec.md R104). -/
theorem SameBut.encodeWrites {free : List Nat} {s t : State} (h : SameBut free s t)
    (bs : List Byte) : SameBut free (encodeWrites s bs) (encodeWrites t bs) := by
  obtain ⟨x, y, es, rfl, hbits⟩ := h
  exact ⟨x, y, es, rfl, hbits⟩

/-- DECODE's writes do not depend on STATUS: the check flags follow CTRL, LEN and the header alone
(41_codec.md R110, R112). -/
theorem SameBut.decodeWrites {free : List Nat} {s t : State} (h : SameBut free s t)
    (bs : List Byte) : SameBut free (decodeWrites s bs) (decodeWrites t bs) := by
  obtain ⟨x, y, es, rfl, hbits⟩ := h
  refine ⟨(Machine.decodeWrites { s with status := x, readData := y, events := es } bs).status, y, es,
    rfl, fun j hj hfree => ?_⟩
  simp only [decodeWrites_status, writeChecks_status_getLsbD, unpackFields_status]
  rw [hbits j hj hfree]
  rfl

/-- A region read depends on the buffer alone. -/
theorem SameOutcome.withRegion {s t : State} (hbuf : t.buf = s.buf) {go go' : List Byte → Result}
    (hgo : ∀ bs, SameOutcome (go bs) (go' bs)) (a n : Nat) :
    SameOutcome (withRegion s a n go) (withRegion t a n go') := by
  unfold Machine.withRegion
  rw [hbuf]
  cases s.buf.readRange a n with
  | error o => exact rfl
  | ok bs => exact hgo bs

/-- A byte read depends on the buffer alone. -/
theorem SameOutcome.withByte {s t : State} (hbuf : t.buf = s.buf) {go go' : Byte → Result}
    (hgo : ∀ b, SameOutcome (go b) (go' b)) (a : Nat) :
    SameOutcome (withByte s a go) (withByte t a go') := by
  unfold Machine.withByte
  rw [hbuf]
  cases s.buf.byte a with
  | none => exact rfl
  | some b => exact hgo b

/-- The operands of the commands (30_encoding.md R66, R67) are among what `SameBut` keeps. -/
theorem SameBut.operands {free : List Nat} {s t : State} (h : SameBut free s t) :
    t.buf = s.buf ∧ t.bufBytes = s.bufBytes ∧ t.baseOff = s.baseOff ∧ t.lenBytes = s.lenBytes ∧
      t.hlenField = s.hlenField ∧ t.tlenField = s.tlenField ∧ t.headerBytes = s.headerBytes ∧
      packFields t = packFields s := by
  obtain ⟨x, y, es, rfl, -⟩ := h
  exact ⟨rfl, rfl, rfl, rfl, rfl, rfl, rfl, rfl⟩

/-- No command's outcome depends on DONE, WBUSY, the data the host read or the schedule (R144). -/
theorem exec_sameOutcome {s t : State} (h : SameBut [1, 12] s t) (i : Instr) :
    SameOutcome (exec i s) (exec i t) := by
  obtain ⟨hbuf, hsize, hbase, hlen, hhlen, htlen, hheader, hpack⟩ := h.operands
  cases i with
  | csum =>
    show SameOutcome (execCsum s) (execCsum t)
    unfold execCsum
    rw [hsize, hbase, hlen]
    split_ifs
    · exact h.raiseError _
    · exact .withRegion hbuf (fun bs => (h.withResult _).succeed) _ _
  | encode =>
    show SameOutcome (execEncode s) (execEncode t)
    unfold execEncode
    simp only [hsize, hbase, hhlen, htlen, hheader, hpack]
    split_ifs
    · exact h.raiseError _
    · exact h.raiseError _
    · exact h.raiseError _
    · exact .withRegion hbuf (fun bs => (h.encodeWrites _).succeed) _ _
  | decode =>
    show SameOutcome (execDecode s) (execDecode t)
    unfold execDecode
    rw [hsize, hbase, hlen]
    split_ifs
    · exact h.raiseError _
    · exact h.raiseError _
    · refine .withByte hbuf (fun first => ?_) _
      split_ifs
      · exact h.raiseError _
      · exact h.raiseError _
      · exact .withRegion hbuf (fun bs => (h.decodeWrites _).succeed) _ _
  | illegal w => exact h.raiseError _

/-- How an engine step can end: with a next state, or with the fault of an unwritten byte inside the
buffer (93_implementation_defined.md U1). -/
def State.EndsOrFaults (s : State) (o : Result) : Prop :=
  (∃ t, o = .next t) ∨ ∃ a, o = .fault (.unwrittenByte a) ∧ a < s.bufBytes ∧ s.buf.byte a = none

/-- A region read inside the buffer ends or faults as its continuation does. -/
theorem endsOrFaults_withRegion {s : State} {a n : Nat} (hfit : a + n ≤ s.bufBytes)
    {go : List Byte → Result} (hgo : ∀ bs, s.EndsOrFaults (go bs)) :
    s.EndsOrFaults (withRegion s a n go) := by
  rcases withRegion_cases s a n go with ⟨bs, -, -, h⟩ | ⟨o, -, ho, hnone, -, h⟩
  · rw [h]
    exact hgo bs
  · exact .inr ⟨o, h, by omega, hnone⟩

/-- A byte read inside the buffer ends or faults as its continuation does. -/
theorem endsOrFaults_withByte {s : State} {a : Nat} (hfit : a < s.bufBytes) {go : Byte → Result}
    (hgo : ∀ b, s.EndsOrFaults (go b)) : s.EndsOrFaults (withByte s a go) := by
  cases hb : s.buf.byte a with
  | none => exact .inr ⟨a, withByte_none hb go, hfit, hb⟩
  | some b =>
    rw [withByte_some hb]
    exact hgo b

/-- Every command ends or faults: its reads stand behind its bounds check, and none is refused. -/
theorem exec_endsOrFaults (i : Instr) (s : State) : s.EndsOrFaults (exec i s) := by
  cases i with
  | csum =>
    show s.EndsOrFaults (execCsum s)
    unfold execCsum
    split_ifs with hbounds
    · exact .inl ⟨_, rfl⟩
    · exact endsOrFaults_withRegion (by omega) fun bs => .inl ⟨_, rfl⟩
  | encode =>
    show s.EndsOrFaults (execEncode s)
    unfold execEncode
    simp only
    split_ifs with hhlen htlen hbounds
    · exact .inl ⟨_, rfl⟩
    · exact .inl ⟨_, rfl⟩
    · exact .inl ⟨_, rfl⟩
    · have h20 : 20 ≤ s.headerBytes := by
        unfold State.headerBytes
        omega
      exact endsOrFaults_withRegion (by omega) fun bs => .inl ⟨_, rfl⟩
  | decode =>
    show s.EndsOrFaults (execDecode s)
    unfold execDecode
    split_ifs with hbounds hshort
    · exact .inl ⟨_, rfl⟩
    · exact .inl ⟨_, rfl⟩
    · refine endsOrFaults_withByte (by omega) fun first => ?_
      split_ifs with hhlen hover
      · exact .inl ⟨_, rfl⟩
      · exact .inl ⟨_, rfl⟩
      · exact endsOrFaults_withRegion (by omega) fun bs => .inl ⟨_, rfl⟩
  | illegal w => exact .inl ⟨_, rfl⟩

/-! Family 10_state.md: interleaving and progress. -/

/-- Settles O54: the run of bus accesses, with nothing after them. -/
theorem busyFreezesOperands : Obligations.BusyFreezesOperands := by
  intro s es hbusy hev hes
  obtain ⟨t, hrun, hst, hevt⟩ := run_bus hes 0 hbusy (by rw [hev, List.append_nil])
  exact ⟨t, hrun, hst.eq_of_events hevt, fun j hj h1 h12 =>
    hst.status_getLsbD hj (by simp [h1, h12])⟩

/-- Settles O55: the engine's turn finds the operands as they were, and no command looks at the rest. -/
theorem outcomeIndependentOfEngineTiming : Obligations.OutcomeIndependentOfEngineTiming := by
  intro s w es hbusy hpend hes
  obtain ⟨u, hrun, hsu, hevu⟩ := run_until_engine (s := { s with events := es }) (rest := []) hbusy
    hpend hes (List.append_nil es).symm (.inl rfl)
  have hturn : step { s with events := [] } = exec (decodeWord w) { s with events := [] } :=
    (step_nil rfl).trans (engineTurn_pending (pendingWord_eq_some.2 ⟨hbusy, hpend⟩))
  have hsame : SameOutcome (exec (decodeWord w) { s with events := [] }) (exec (decodeWord w) u) :=
    exec_sameOutcome (.trans (.of_host_fields _ { s with events := [] } es s.readData) hsu) _
  rw [hturn, hrun]
  constructor
  · intro t ht
    rw [ht] at hsame
    obtain ⟨v, hv, htv⟩ := hsame.of_next
    obtain ⟨-, -, -, -, -, hevt⟩ := exec_frame ht
    obtain ⟨-, -, -, -, -, hevv⟩ := exec_frame hv
    refine ⟨v, hv, ?_, fun j hj h12 => htv.status_getLsbD hj (by simp [h12])⟩
    exact htv.eq_of_events (hevv.trans (hevu.trans hevt.symm))
  · intro f hf
    rw [hf] at hsame
    exact hsame.of_fault

/-- A schedule without a reset is bus accesses up to the engine's turn, or to its end. -/
theorem bus_accesses_before_engine {events : List Event} (h : Event.reset ∉ events) :
    ∃ es rest, events = es ++ rest ∧ (∀ e ∈ es, e.isBus = true) ∧
      (rest = [] ∨ ∃ later, rest = .engine :: later) := by
  induction events with
  | nil => exact ⟨[], [], rfl, by simp, .inl rfl⟩
  | cons e events ih =>
    obtain ⟨hne, hlater⟩ := not_or.1 (List.mem_cons.not.1 h)
    obtain ⟨es, rest, rfl, hes, hrest⟩ := ih hlater
    cases e with
    | read a => exact ⟨.read a :: es, rest, rfl, List.forall_mem_cons.2 ⟨rfl, hes⟩, hrest⟩
    | write a d st =>
      exact ⟨.write a d st :: es, rest, rfl, List.forall_mem_cons.2 ⟨rfl, hes⟩, hrest⟩
    | reset => exact absurd rfl hne
    | engine => exact ⟨[], .engine :: (es ++ rest), rfl, by simp, .inr ⟨_, rfl⟩⟩

/-- Settles O56: the engine's turn comes after the bus accesses that stand before it, and ends as it
would have ended at once. -/
theorem acceptedCommandCompletes : Obligations.AcceptedCommandCompletes := by
  intro s w hbusy hpend hreset
  obtain ⟨es, rest, hev, hes, hrest⟩ := bus_accesses_before_engine hreset
  obtain ⟨u, hrun, hsu, -⟩ := run_until_engine hbusy hpend hes hev hrest
  have hk : es.length + 1 ≤ s.events.length + 1 := by
    rw [hev, List.length_append]
    omega
  have hturn : engineTurn s = exec (decodeWord w) s :=
    engineTurn_pending (pendingWord_eq_some.2 ⟨hbusy, hpend⟩)
  have hsame := exec_sameOutcome hsu (decodeWord w)
  rcases exec_endsOrFaults (decodeWord w) s with ⟨t, ht⟩ | ⟨o, hfault, hbound, hnone⟩
  · refine ⟨fun _ => ?_, fun hunsafe => (hunsafe fun f hf => ?_).elim⟩
    · rw [ht] at hsame
      obtain ⟨v, hv, -⟩ := hsame.of_next
      obtain ⟨hnopend, -⟩ := exec_frame hv
      exact ⟨_, v, hk, hrun.trans hv, exec_busyFlag hv, exec_doneFlag hv, hnopend⟩
    · rw [hturn, ht] at hf
      cases hf
  · refine ⟨fun hsafe => (hsafe _ (hturn.trans hfault)).elim, fun _ => ?_⟩
    rw [hfault] at hsame
    exact ⟨_, o, hk, hrun.trans hsame.of_fault, hbound, hnone⟩

end Sys2Proof.Machine

namespace Sys2Proof.Machine

/-! SUPPORT. The host address (20_memory.md R42, R46): what the block looks at in it, and where a
window word ends. -/

/-- `A[16:2]` says whether an address is in the window, and where (R46). -/
theorem address_congr {a a' : HostAddr} (h : a.extractLsb' 2 15 = a'.extractLsb' 2 15) :
    inWindow a = inWindow a' ∧ wordOffset a = wordOffset a' := by
  have window_bit : ∀ x : HostAddr, inWindow x = (x.extractLsb' 2 15).getLsbD 14 := fun x =>
    (extract_getLsbD x 2 15 14 (by omega)).symm
  have offset_field : ∀ x : HostAddr,
      wordOffset x = 4 * ((x.extractLsb' 2 15).extractLsb' 0 14).toNat := fun x => by
    rw [extract_extract x 2 15 0 14 (by omega), wordOffset]
  rw [window_bit, window_bit, offset_field, offset_field, h]
  exact ⟨rfl, rfl⟩

/-- The register map looks at the word offset alone (10_state.md R15). -/
theorem regAt_congr {a a' : HostAddr} (h : wordOffset a = wordOffset a') : regAt a = regAt a' := by
  unfold regAt
  rw [h]

/-- A present window word is present whole: it starts at a multiple of four, and BUF_BYTES is one
(R42). -/
theorem word_end_lt_bufBytes {s : State} {a : HostAddr} (h : wordOffset a < s.bufBytes) :
    wordOffset a + 3 < s.bufBytes := by
  have haligned : wordOffset a % 4 = 0 := Nat.mul_mod_right 4 _
  obtain ⟨hbuf, -, -⟩ := bufBytes_bounds s
  omega

/-! SUPPORT. What the host reads in the window (20_memory.md R43, R49). -/

/-- A present byte reads as it was written (R43). -/
theorem hostByte_written {s : State} {o : Nat} {b : Byte} (ho : o < s.bufBytes)
    (hb : s.buf.byte o = some b) : hostByte s o = b := by
  rw [hostByte, if_pos ho, hb]

/-- A byte past the buffer reads 0 (R42). -/
theorem hostByte_absent {s : State} {o : Nat} (ho : s.bufBytes ≤ o) : hostByte s o = 0#8 :=
  if_neg (by omega)

/-- A word of four written bytes reads as those bytes, most significant first (R43). -/
theorem windowWord_of_holds {s : State} {o : Nat} {b0 b1 b2 b3 : Byte} (ho : o + 3 < s.bufBytes)
    (h : s.buf.holds o [b0, b1, b2, b3]) : windowWord s o = beWord b0 b1 b2 b3 := by
  have byte : ∀ (k : Nat) (b : Byte), [b0, b1, b2, b3][k]? = some b → hostByte s (o + k) = b :=
    fun k b hk => by
      have hlt : k < 4 := (List.getElem?_eq_some_iff.1 hk).1
      exact hostByte_written (by omega) ((h k hlt).trans hk)
  have hfirst : hostByte s o = b0 := byte 0 b0 rfl
  rw [windowWord, hfirst, byte 1 b1 rfl, byte 2 b2 rfl, byte 3 b3 rfl]

/-- A word past the buffer reads 0 (R42). -/
theorem windowWord_absent {s : State} {o : Nat} (ho : s.bufBytes ≤ o) : windowWord s o = 0#32 := by
  rw [windowWord, hostByte_absent ho, hostByte_absent (o := o + 1) (by omega),
    hostByte_absent (o := o + 2) (by omega), hostByte_absent (o := o + 3) (by omega)]
  rfl

/-- A read in the window is `windowWord` (R49). -/
theorem busRead_window {a : HostAddr} (hw : inWindow a = true) (s : State) :
    busRead s a = windowWord s (wordOffset a) :=
  if_pos hw

/-- A present window word that holds a word's bytes reads as the word (R43). -/
theorem busRead_of_holds {s : State} {a : HostAddr} {w : Word} (hw : inWindow a = true)
    (ha : wordOffset a < s.bufBytes) (h : s.buf.holds (wordOffset a) (bytesOfWord w)) :
    busRead s a = w := by
  rw [busRead_window hw, windowWord_of_holds (word_end_lt_bufBytes ha) h, beWord_bytes]

/-- The bytes of a big-endian word are the four it was made of (00_scope.md R9). -/
theorem bytesOfWord_beWord (b0 b1 b2 b3 : Byte) :
    bytesOfWord (beWord b0 b1 b2 b3) = [b0, b1, b2, b3] := by
  have field : ∀ (lo : Nat) (b : Byte),
      (∀ j, j < 8 → (beWord b0 b1 b2 b3).getLsbD (lo + j) = b.getLsbD j) →
      (beWord b0 b1 b2 b3).extractLsb' lo 8 = b := fun lo b h =>
    BitVec.eq_of_getLsbD_eq fun j hj => (extract_getLsbD _ lo 8 j hj).trans (h j hj)
  have h0 := field 24 b0 fun j hj => by
    rw [beWord_getLsbD, if_neg (by omega), if_neg (by omega), if_neg (by omega),
      Nat.add_sub_cancel_left]
  have h1 := field 16 b1 fun j hj => by
    rw [beWord_getLsbD, if_neg (by omega), if_neg (by omega), if_pos (by omega),
      Nat.add_sub_cancel_left]
  have h2 := field 8 b2 fun j hj => by
    rw [beWord_getLsbD, if_neg (by omega), if_pos (by omega), Nat.add_sub_cancel_left]
  have h3 := field 0 b3 fun j hj => by
    rw [beWord_getLsbD, if_pos (by omega), Nat.zero_add]
  rw [bytesOfWord, h0, h1, h2, h3]

/-- A word's byte at offset `k` is its lane `3 - k` (R43, R48). -/
theorem bytesOfWord_getElem? (w : Word) {k : Nat} (hk : k < 4) :
    (bytesOfWord w)[k]? = some (w.extractLsb' (8 * (3 - k)) 8) := by
  interval_cases k <;> rfl

/-! SUPPORT. What a window write does (20_memory.md R42, R48). -/

/-- On the idle block a window write is `writeWindow`, whatever its strobe: with none it stores no
lane (R48). -/
theorem busWrite_window_idle {s : State} {a : HostAddr} (hw : inWindow a = true)
    (hidle : s.busyFlag = false) (d : Word) (st : Strobe) :
    busWrite s a d st = writeWindow s (wordOffset a) d st := by
  by_cases hst : st = 0#4
  · rw [hst, busWrite_zero_strobe]
    rfl
  · rw [busWrite_window hst hw, unlessBusy_idle hidle]

/-- A strobed lane `j` whose byte is present stands at offset `o + 3 - j` (R48). -/
theorem byte_writeWindow_lane {s : State} {o j : Nat} {st : Strobe} (d : Word) (hj : j < 4)
    (hon : st.getLsbD j = true) (hpresent : o + 3 - j < s.bufBytes) :
    (writeWindow s o d st).buf.byte (o + 3 - j) = some (d.extractLsb' (8 * j) 8) := by
  rw [byte_writeWindow]
  interval_cases j <;> simp_all

/-- A byte that is no present strobed lane's stays (R48). -/
theorem byte_writeWindow_other {s : State} {o b : Nat} {st : Strobe} (d : Word)
    (h : ∀ j, j < 4 → st.getLsbD j = true → o + 3 - j < s.bufBytes → b ≠ o + 3 - j) :
    (writeWindow s o d st).buf.byte b = s.buf.byte b := by
  rw [byte_writeWindow, if_neg fun ⟨hon, hp, hb⟩ => h 3 (by omega) hon hp hb,
    if_neg fun ⟨hon, hp, hb⟩ => h 2 (by omega) hon hp hb,
    if_neg fun ⟨hon, hp, hb⟩ => h 1 (by omega) hon hp hb,
    if_neg fun ⟨hon, hp, hb⟩ => h 0 (by omega) hon hp hb]

/-- A present word written with all lanes strobed holds the data's bytes (R43, R48). -/
theorem holds_writeWindow {s : State} {o : Nat} (d : Word) (ho : o + 3 < s.bufBytes) :
    (writeWindow s o d 0xF#4).buf.holds o (bytesOfWord d) := by
  intro k hk
  rw [bytesOfWord_length] at hk
  have hall : ∀ j, j < 4 → (0xF#4 : Strobe).getLsbD j = true := by decide
  have hlane := byte_writeWindow_lane (s := s) (o := o) d (j := 3 - k) (by omega)
    (hall _ (by omega)) (by omega)
  rwa [show o + 3 - (3 - k) = o + k by omega, ← bytesOfWord_getElem? d hk] at hlane

/-- A lane past the buffer is not stored (R42). -/
theorem writeLane_absent {n o : Nat} (h : n ≤ o) (on : Bool) (b : Byte) (m : Memory) :
    writeLane n on o b m = m := by
  have hnot : ¬ o < n := by omega
  simp [writeLane, hnot]

/-- A window word past the buffer ignores every write (R42). -/
theorem writeWindow_absent {s : State} {o : Nat} (h : s.bufBytes ≤ o) (d : Word) (st : Strobe) :
    writeWindow s o d st = s := by
  rw [writeWindow, writeLane_absent h, writeLane_absent (o := o + 1) (by omega),
    writeLane_absent (o := o + 2) (by omega), writeLane_absent (o := o + 3) (by omega)]

/-! Family 20_memory.md: the buffer window, and what the host's reads and addresses mean. -/

/-- Settles O39: the write is `writeWindow`, taken lane by lane. -/
theorem windowWriteStoresLanes : Obligations.WindowWriteStoresLanes := by
  intro s a data strb hw hidle
  rw [busWrite_window_idle hw hidle]
  refine ⟨fun _ => byte_writeWindow_lane data, fun b hb => ?_, rfl⟩
  refine byte_writeWindow_other data fun j hj hon hpresent => ?_
  rcases hb with hother | habsent
  · exact hother j hj hon
  · omega

/-- Settles O40: the word's four bytes stand in the buffer, and a read shows what stands there. -/
theorem windowWordReadsBack : Obligations.WindowWordReadsBack := by
  intro s a data hw hidle ha
  rw [busWrite_window_idle hw hidle]
  have hholds := holds_writeWindow data (word_end_lt_bufBytes ha)
  exact ⟨busRead_of_holds hw ha hholds, hholds⟩

/-- Settles O41: the read is the big-endian word of the four bytes, whose fields are these bytes. -/
theorem windowReadIsBigEndian : Obligations.WindowReadIsBigEndian := by
  intro s a hw ha
  refine ⟨fun b0 b1 b2 b3 h => ?_, fun w h => busRead_of_holds hw ha h⟩
  rw [busRead_window hw, windowWord_of_holds (word_end_lt_bufBytes ha) h]
  simpa [bytesOfWord] using bytesOfWord_beWord b0 b1 b2 b3

/-- Settles O42: past the buffer every byte reads 0 and no lane is stored. -/
theorem absentWindowReadsZero : Obligations.AbsentWindowReadsZero := by
  intro s a data strb hw habsent
  refine ⟨(busRead_window hw s).trans (windowWord_absent habsent), fun hidle => ?_⟩
  rw [busWrite_window_idle hw hidle, writeWindow_absent habsent]

/-- Settles O44: a bus access looks at the window bit, the word offset and the register there. -/
theorem lowAddressBitsAreIgnored : Obligations.LowAddressBitsAreIgnored := by
  intro s a a' data strb h
  obtain ⟨hwindow, hoffset⟩ := address_congr h
  have hreg := regAt_congr hoffset
  constructor
  · rw [busRead, busRead, hwindow, hoffset, hreg]
  · rw [busWrite, busWrite, hwindow, hoffset, hreg]

/-- Settles O45: each step is a host read, and a read looks neither at the schedule nor at the data of
an earlier one. -/
theorem readsHaveNoSideEffect : Obligations.ReadsHaveNoSideEffect := by
  intro s a es hev
  have hdata : busRead { s with events := .read a :: es } a = busRead s a := busRead_events s _ a
  have hagain : busRead { s with events := es, readData := busRead s a } a = busRead s a :=
    busRead_readData s es _ a
  refine ⟨hostRead a { s with events := .read a :: es },
    { s with events := es, readData := busRead s a }, step_cons hev, ?_, rfl, ?_, hdata⟩
  · rw [hostRead, hdata, step_cons rfl, runEvent, hostRead, hagain]
  · rw [hostRead, hdata]

end Sys2Proof.Machine

namespace Sys2Proof.Machine

/-! SUPPORT. The decoder and the encoder are inverse, on words and on byte lanes (30_encoding.md R62
to R64). -/

/-- A legal word is 1, 2 or 3 (R64). -/
theorem legalWord_iff {w : Word} : legalWord w = true ↔ w = 1#32 ∨ w = 2#32 ∨ w = 3#32 := by
  constructor
  · intro hlegal
    rcases decodeWord_cases w with ⟨h1, -⟩ | ⟨h2, -⟩ | ⟨h3, -⟩ | ⟨-, -, -, hillegal, -⟩
    · exact .inl h1
    · exact .inr (.inl h2)
    · exact .inr (.inr h3)
    · rw [hillegal] at hlegal
      cases hlegal
  · rintro (rfl | rfl | rfl) <;> decide

/-- A word that is not legal decodes to the illegal command that carries it (R64, R65). -/
theorem decodeWord_of_not_legal {w : Word} (h : legalWord w = false) : decodeWord w = .illegal w := by
  have hnot : ¬ (w = 1#32 ∨ w = 2#32 ∨ w = 3#32) := by simp [← legalWord_iff, h]
  rcases decodeWord_cases w with ⟨h1, -⟩ | ⟨h2, -⟩ | ⟨h3, -⟩ | ⟨-, -, -, -, hdec⟩
  · exact absurd (.inl h1) hnot
  · exact absurd (.inr (.inl h2)) hnot
  · exact absurd (.inr (.inr h3)) hnot
  · exact hdec

/-- An illegal term is well-formed when no other command has its word (R64). -/
theorem illegal_wellFormed_iff {w : Word} :
    (Instr.illegal w).wellFormed = true ↔ legalWord w = false := by
  rw [Instr.wellFormed, Bool.not_eq_true']

/-- Every command that the decoder answers is well-formed. -/
theorem decodeWord_wellFormed (w : Word) : (decodeWord w).wellFormed = true := by
  rcases decodeWord_cases w with ⟨-, h⟩ | ⟨-, h⟩ | ⟨-, h⟩ | ⟨-, -, -, hillegal, h⟩ <;> rw [h]
  case inr.inr.inr => exact illegal_wellFormed_iff.2 hillegal
  all_goals rfl

/-- No bit of a word is dropped: the command it selects has that word (R62). -/
theorem encodeWord_decodeWord (w : Word) : encodeWord (decodeWord w) = w := by
  rcases decodeWord_cases w with ⟨rfl, h⟩ | ⟨rfl, h⟩ | ⟨rfl, h⟩ | ⟨-, -, -, -, h⟩ <;> rw [h] <;> rfl

/-- A well-formed command is the one its own word selects (R63, R64). -/
theorem decodeWord_encodeWord {i : Instr} (h : i.wellFormed = true) :
    decodeWord (encodeWord i) = i := by
  cases i with
  | csum => decide
  | encode => decide
  | decode => decide
  | illegal w => exact decodeWord_of_not_legal (illegal_wellFormed_iff.1 h)

/-- Each command is selected by its own word and by no other. -/
theorem decodeWord_eq_iff {w : Word} {i : Instr} :
    decodeWord w = i ↔ i.wellFormed = true ∧ w = encodeWord i := by
  constructor
  · rintro rfl
    exact ⟨decodeWord_wellFormed w, (encodeWord_decodeWord w).symm⟩
  · rintro ⟨hwf, rfl⟩
    exact decodeWord_encodeWord hwf

/-- The lanes of the word made of four lanes are these lanes (20_memory.md R48). -/
theorem lanesOfWord_wordOfLanes (b0 b1 b2 b3 : Byte) :
    lanesOfWord (wordOfLanes b0 b1 b2 b3) = [b0, b1, b2, b3] :=
  congrArg List.reverse (bytesOfWord_beWord b3 b2 b1 b0)

/-- A well-formed command decodes from its own bytes. -/
theorem decode_encode {i : Instr} (h : i.wellFormed = true) : decode (encode i) = .ok i := by
  rw [encode, decode_lanesOfWord, decodeWord_encodeWord h]

/-- Bytes that decode are the four lanes of a word, and the command is the word's (R62). -/
theorem decode_eq_ok_iff {bs : List Byte} {i : Instr} :
    decode bs = .ok i ↔ ∃ w, bs = lanesOfWord w ∧ decodeWord w = i := by
  constructor
  · intro h
    match bs, h with
    | [b0, b1, b2, b3], h =>
      exact ⟨wordOfLanes b0 b1 b2 b3, (lanesOfWord_wordOfLanes b0 b1 b2 b3).symm, Except.ok.inj h⟩
  · rintro ⟨w, rfl, rfl⟩
    exact decode_lanesOfWord w

/-- Bytes that decode are the bytes of the command they decode to. -/
theorem encode_of_decode {bs : List Byte} {i : Instr} (h : decode bs = .ok i) : encode i = bs := by
  obtain ⟨w, rfl, rfl⟩ := decode_eq_ok_iff.1 h
  rw [encode, encodeWord_decodeWord]

/-! Family 30_encoding.md: the command words. -/

/-- Settles O2: `decodeWord` and `encodeWord` are inverse, and so are a word and its four lanes. -/
theorem decodeEncodeAgree : Obligations.DecodeEncodeAgree :=
  ⟨fun _ => decode_encode, fun w => ⟨decodeWord_wellFormed w, encodeWord_decodeWord w⟩,
    fun _ _ => encode_of_decode⟩

/-- Settles O3: a command is selected by its own word alone, and an illegal one carries that word. -/
theorem legalWordsAreExactlyThree : Obligations.LegalWordsAreExactlyThree := by
  intro w
  have selects : ∀ i : Instr, i.wellFormed = true → (decodeWord w = i ↔ w = encodeWord i) :=
    fun i hwf => decodeWord_eq_iff.trans (and_iff_right hwf)
  refine ⟨legalWord_iff, selects .csum rfl, selects .encode rfl, selects .decode rfl, fun v => ?_⟩
  constructor
  · intro h
    obtain ⟨hwf, rfl⟩ := decodeWord_eq_iff.1 h
    exact ⟨rfl, illegal_wellFormed_iff.1 hwf⟩
  · rintro ⟨rfl, hillegal⟩
    exact decodeWord_of_not_legal hillegal

/-- Settles O1: the five samples are the bytes of well-formed commands, and three bytes are none. -/
theorem decoderReadsSampleWords : Obligations.DecoderReadsSampleWords :=
  ⟨decode_encode (i := .csum) rfl, decode_encode (i := .encode) rfl, decode_encode (i := .decode) rfl,
    decode_encode (i := .illegal 0x00000011#32) (by decide),
    decode_encode (i := .illegal 0x80000001#32) (by decide), rfl⟩

end Sys2Proof.Machine

namespace Sys2Proof.Machine

/-! SUPPORT. The word sum of a byte sequence without bound, and the accumulator as its value modulo
2^32 (40_checksum.md R87, R89). -/

/-- A word more does not change the parity of a byte sequence's length. -/
theorem length_cons_cons_mod_two (a b : Byte) (rest : List Byte) :
    (a :: b :: rest).length % 2 = rest.length % 2 :=
  Nat.add_mod_right rest.length 2

/-- Words are added into the accumulator, whatever it holds and however long the sequence is. -/
theorem sumWords_eq (acc : Word) (bytes : List Byte) :
    sumWords acc bytes = acc + BitVec.ofNat 32 (sumNat bytes) := by
  have word : ∀ a b : Byte,
      (beHalf a b).setWidth 32 = BitVec.ofNat 32 (256 * a.toNat + b.toNat) := by
    intro a b
    rw [← BitVec.ofNat_toNat, beHalf_toNat]
  induction acc, bytes using sumWords.induct with
  | case1 acc => simp [sumWords, sumNat]
  | case2 acc a => simp [sumWords, sumNat, word]
  | case3 acc a b rest ih =>
    rw [sumWords, sumNat, ih, word, BitVec.add_assoc, ← BitVec.ofNat_add]

/-- The one's-complement sum depends on the word sum alone. -/
theorem onesSum_congr {l l' : List Byte} (h : sumNat l = sumNat l') : onesSum l = onesSum l' := by
  rw [onesSum, onesSum, sumWords_eq, sumWords_eq, h]

/-- Each word is at most 65535. -/
theorem sumNat_le (bytes : List Byte) : sumNat bytes ≤ 65535 * ((bytes.length + 1) / 2) := by
  induction bytes using sumNat.induct with
  | case1 => simp [sumNat]
  | case2 a =>
    have := a.isLt
    simp only [sumNat, List.length_singleton]
    omega
  | case3 a b rest ih =>
    have := a.isLt
    have := b.isLt
    simp only [sumNat, List.length_cons]
    omega

/-- The bound of R89, which a padded sequence of 65536 bytes meets too. -/
theorem sumNat_le_of_length {bytes : List Byte} (h : bytes.length ≤ 65536) :
    sumNat bytes ≤ 0x7FFF8000 := by
  have := sumNat_le bytes
  omega

/-- Within that length the accumulator does not wrap (R89). -/
theorem sumWords_toNat {bytes : List Byte} (h : bytes.length ≤ 65536) :
    (sumWords 0#32 bytes).toNat = sumNat bytes := by
  have := sumNat_le_of_length h
  rw [sumWords_eq, BitVec.zero_add, BitVec.toNat_ofNat, Nat.mod_eq_of_lt (by omega)]

/-- The sum is 0 only for zero bytes: nothing is subtracted in it. -/
theorem sumNat_eq_zero_iff (bytes : List Byte) : sumNat bytes = 0 ↔ ∀ b ∈ bytes, b = 0#8 := by
  have zero : ∀ b : Byte, b = 0#8 ↔ b.toNat = 0 := fun b => BitVec.toNat_inj.symm
  induction bytes using sumNat.induct with
  | case1 => simp [sumNat]
  | case2 a => simp [sumNat, zero]
  | case3 a b rest ih =>
    have hrest : sumNat rest = 0 ↔ ∀ b ∈ rest, b = 0#8 := ih
    rw [sumNat, List.forall_mem_cons, List.forall_mem_cons, ← hrest, zero a, zero b]
    omega

/-- At an even boundary the word sums add up. -/
theorem sumNat_append {a : List Byte} (h : a.length % 2 = 0) (b : List Byte) :
    sumNat (a ++ b) = sumNat a + sumNat b := by
  induction a using sumNat.induct with
  | case1 => simp [sumNat]
  | case2 x => simp at h
  | case3 x y rest ih =>
    rw [length_cons_cons_mod_two] at h
    simp only [List.cons_append, sumNat, ih h]
    omega

/-- An odd tail is the high byte of a word padded with 0 (R87). -/
theorem sumNat_append_zero {bytes : List Byte} (h : bytes.length % 2 = 1) :
    sumNat (bytes ++ [0#8]) = sumNat bytes := by
  induction bytes using sumNat.induct with
  | case1 => simp at h
  | case2 a => simp [sumNat]
  | case3 a b rest ih =>
    rw [length_cons_cons_mod_two] at h
    simp only [List.cons_append, sumNat, ih h]

/-- The halves of a 16-bit value, as numbers. -/
theorem hiByte_toNat (h : Half) : (hiByte h).toNat = h.toNat / 256 := by
  have := h.isLt
  simp only [hiByte, BitVec.extractLsb'_toNat, Nat.shiftRight_eq_div_pow]
  omega

theorem loByte_toNat (h : Half) : (loByte h).toNat = h.toNat % 256 := by
  simp only [loByte, BitVec.extractLsb'_toNat, Nat.shiftRight_zero]

/-- The bytes of words, high byte first, sum to the words' sum. -/
theorem sumNat_flatMap (words : List Half) :
    sumNat (words.flatMap fun h => [hiByte h, loByte h]) = (words.map BitVec.toNat).sum := by
  induction words with
  | nil => rfl
  | cons h rest ih =>
    simp only [List.flatMap_cons, List.cons_append, List.nil_append, sumNat, ih, List.map_cons,
      List.sum_cons, hiByte_toNat, loByte_toNat]
    omega

/-! SUPPORT. The one's-complement sum as the one 16-bit value that is congruent to the word sum
modulo 65535 and is 0 only with it (R89, R90). -/

/-- Two folds, characterised: a fold keeps the value modulo 65535, and leaves 0 only of 0. -/
theorem foldNat_foldNat_eq_iff {t v : Nat} (ht : t < 2 ^ 32) (hv : v < 65536) :
    foldNat (foldNat t) = v ↔ v % 65535 = t % 65535 ∧ (v = 0 ↔ t = 0) := by
  simp only [foldNat]
  omega

theorem onesSum_toNat_of_length {bytes : List Byte} (h : bytes.length ≤ 65536) :
    (onesSum bytes).toNat = foldNat (foldNat (sumNat bytes)) := by
  rw [onesSum_toNat, sumWords_toNat h]

/-- A value is the sum of a sequence exactly when it has the word sum's residue and vanishes with
it. -/
theorem onesSum_eq_iff {bytes : List Byte} (hlen : bytes.length ≤ 65536) (h : Half) :
    onesSum bytes = h ↔
      h.toNat % 65535 = sumNat bytes % 65535 ∧ (h.toNat = 0 ↔ sumNat bytes = 0) := by
  have := sumNat_le_of_length hlen
  rw [← BitVec.toNat_inj, onesSum_toNat_of_length hlen,
    foldNat_foldNat_eq_iff (by omega) h.isLt]

/-- The residue and the zero of the sum itself. -/
theorem onesSum_spec {bytes : List Byte} (hlen : bytes.length ≤ 65536) :
    (onesSum bytes).toNat % 65535 = sumNat bytes % 65535 ∧
      ((onesSum bytes).toNat = 0 ↔ sumNat bytes = 0) :=
  (onesSum_eq_iff hlen _).1 rfl

/-- One's-complement addition is one fold of the exact sum (R90). -/
theorem onesAdd_toNat (a b : Half) : (onesAdd a b).toNat = foldNat (a.toNat + b.toNat) := by
  have := a.isLt
  have := b.isLt
  have hexact : (a.setWidth 17 + b.setWidth 17).toNat = a.toNat + b.toNat := by
    simp only [BitVec.toNat_add, BitVec.toNat_setWidth]
    omega
  simp only [onesAdd, foldNat, BitVec.toNat_add, BitVec.extractLsb'_toNat, BitVec.toNat_setWidth,
    hexact, Nat.shiftRight_eq_div_pow, Nat.reducePow, Nat.div_one]
  have hcarry : (a.toNat + b.toNat) / 65536 < 2 := by omega
  rw [Nat.mod_eq_of_lt hcarry]
  omega

/-- A value and its complement add to 0xFFFF, with no carry (R91). -/
theorem onesAdd_complement (h : Half) : onesAdd h (~~~h) = 0xFFFF#16 := by
  have := h.isLt
  rw [← BitVec.toNat_inj, onesAdd_toNat, BitVec.toNat_not]
  simp only [foldNat, BitVec.toNat_ofNat]
  omega

/-- Two bytes sum to the value they hold. -/
theorem onesSum_pair (h : Half) : onesSum [hiByte h, loByte h] = h := by
  have hsum : sumNat [hiByte h, loByte h] = h.toNat := by
    simpa using sumNat_flatMap [h]
  rw [onesSum_eq_iff (by simp), hsum]
  exact ⟨rfl, Iff.rfl⟩

/-- R90 item 6, for one byte more than a length register can hold. -/
theorem onesSum_append {a b : List Byte} (hlen : (a ++ b).length ≤ 65536)
    (heven : a.length % 2 = 0) : onesSum (a ++ b) = onesAdd (onesSum a) (onesSum b) := by
  have hab : a.length + b.length ≤ 65536 := by simpa using hlen
  obtain ⟨hamod, hazero⟩ := onesSum_spec (bytes := a) (by omega)
  obtain ⟨hbmod, hbzero⟩ := onesSum_spec (bytes := b) (by omega)
  have := (onesSum a).isLt
  have := (onesSum b).isLt
  rw [onesSum_eq_iff hlen, sumNat_append heven, onesAdd_toNat]
  simp only [foldNat]
  omega

/-- R90 item 5. -/
theorem onesSum_append_zero {bytes : List Byte} (h : bytes.length % 2 = 1) :
    onesSum (bytes ++ [0#8]) = onesSum bytes :=
  onesSum_congr (sumNat_append_zero h)

/-- R91 for an even length, from the rule for an even boundary. -/
theorem onesSum_append_checksum {bytes : List Byte} (hlen : bytes.length + 2 ≤ 65536)
    (heven : bytes.length % 2 = 0) :
    onesSum (bytes ++ [hiByte (checksum bytes), loByte (checksum bytes)]) = 0xFFFF#16 := by
  rw [onesSum_append (by simpa using hlen) heven, onesSum_pair, checksum, onesAdd_complement]

/-! SUPPORT. Byte order: exchanging the bytes of every word multiplies by 256 modulo 65535 (R90,
R94). -/

theorem swapHalf_toNat (h : Half) : (swapHalf h).toNat = 256 * (h.toNat % 256) + h.toNat / 256 := by
  rw [swapHalf, beHalf_toNat, loByte_toNat, hiByte_toNat]

@[simp] theorem hiByte_beHalf (a b : Byte) : hiByte (beHalf a b) = a :=
  BitVec.extractLsb'_append_eq_left

@[simp] theorem loByte_beHalf (a b : Byte) : loByte (beHalf a b) = b :=
  BitVec.extractLsb'_append_eq_right

@[simp] theorem length_swapPairs (bytes : List Byte) : (swapPairs bytes).length = bytes.length := by
  induction bytes using swapPairs.induct with
  | case1 a b rest ih => simp [swapPairs, ih]
  | case2 l hl => simp only [swapPairs]

/-- With its bytes exchanged each word `256a + b` becomes `256b + a`, and `65536a` is `a` modulo
65535. -/
theorem sumNat_swapPairs {bytes : List Byte} (h : bytes.length % 2 = 0) :
    sumNat (swapPairs bytes) % 65535 = 256 * sumNat bytes % 65535 ∧
      (sumNat (swapPairs bytes) = 0 ↔ sumNat bytes = 0) := by
  induction bytes using sumNat.induct with
  | case1 => simp [swapPairs, sumNat]
  | case2 a => simp at h
  | case3 a b rest ih =>
    rw [length_cons_cons_mod_two] at h
    obtain ⟨hmod, hzero⟩ := ih h
    simp only [swapPairs, sumNat]
    omega

/-- R90 item 4, for one byte more than a length register can hold. -/
theorem onesSum_swapPairs {bytes : List Byte} (hlen : bytes.length ≤ 65536)
    (heven : bytes.length % 2 = 0) : onesSum (swapPairs bytes) = swapHalf (onesSum bytes) := by
  obtain ⟨hswap, hswapZero⟩ := sumNat_swapPairs heven
  obtain ⟨hmod, hzero⟩ := onesSum_spec hlen
  rw [onesSum_eq_iff (by simpa using hlen), swapHalf_toNat]
  omega

/-- In little-endian order an odd tail is the low byte of a word, as with a zero byte appended
(R94). -/
theorem sumWordsLittle_append_zero (acc : Word) {bytes : List Byte} (h : bytes.length % 2 = 1) :
    sumWordsLittle acc (bytes ++ [0#8]) = sumWordsLittle acc bytes := by
  induction acc, bytes using sumWordsLittle.induct with
  | case1 acc => simp at h
  | case2 acc a =>
    have hword : beHalf 0#8 a = a.setWidth 16 := by
      rw [← BitVec.toNat_inj, beHalf_toNat, BitVec.toNat_setWidth_of_le (by omega)]
      simp
    simp [sumWordsLittle, hword]
  | case3 acc a b rest ih =>
    rw [length_cons_cons_mod_two] at h
    simp only [List.cons_append, sumWordsLittle, ih h]

/-- The words in little-endian order are the words of the exchanged bytes. -/
theorem sumWordsLittle_eq_swapPairs (acc : Word) {bytes : List Byte} (h : bytes.length % 2 = 0) :
    sumWordsLittle acc bytes = sumWords acc (swapPairs bytes) := by
  induction acc, bytes using sumWordsLittle.induct with
  | case1 acc => rfl
  | case2 acc a => simp at h
  | case3 acc a b rest ih =>
    rw [length_cons_cons_mod_two] at h
    simp only [swapPairs, sumWords, sumWordsLittle, ih h]

/-- The little-endian sum is the byte swap of the big-endian one: an odd sequence is padded under
both readings (R94). -/
theorem onesSumLittle_eq_swapHalf {bytes : List Byte} (hlen : bytes.length ≤ 65535) :
    onesSumLittle bytes = swapHalf (onesSum bytes) := by
  rcases Nat.mod_two_eq_zero_or_one bytes.length with heven | hodd
  · rw [← onesSum_swapPairs (by omega) heven, onesSumLittle, onesSum,
      sumWordsLittle_eq_swapPairs _ heven]
  · have hlength : (bytes ++ [0#8]).length = bytes.length + 1 := by simp
    rw [← onesSum_append_zero hodd, ← onesSum_swapPairs (by omega) (by omega), onesSumLittle,
      onesSum, ← sumWordsLittle_append_zero _ hodd, sumWordsLittle_eq_swapPairs _ (by omega)]

/-- Exchanging the bytes and complementing commute. -/
theorem not_swapHalf (h : Half) : ~~~swapHalf h = swapHalf (~~~h) := by
  have := h.isLt
  rw [← BitVec.toNat_inj, BitVec.toNat_not, swapHalf_toNat, swapHalf_toNat, BitVec.toNat_not]
  omega

/-! Family 40_checksum.md: the laws of the sum. -/

/-- Settles O26: at most 32768 words of at most 65535 each. -/
theorem accumulatorNeverOverflows : Obligations.AccumulatorNeverOverflows := by
  intro bytes hlen
  have hlen' : bytes.length ≤ 65536 := by omega
  have hsum := sumNat_le_of_length hlen'
  have hfold : foldNat (sumNat bytes) ≤ 0x17FFE := by
    unfold foldNat
    omega
  have hfoldTwice : foldNat (foldNat (sumNat bytes)) ≤ 0xFFFF := by
    rw [foldNat]
    omega
  exact ⟨hsum, sumWords_toNat hlen', hfold, hfoldTwice, onesSum_toNat_of_length hlen'⟩

/-- Settles O27: the sum vanishes with the unbounded word sum, which has no negative words, and the
complement exchanges 0 and 0xFFFF. -/
theorem zeroSumIffAllBytesZero : Obligations.ZeroSumIffAllBytesZero := by
  intro bytes hlen
  have hzero : onesSum bytes = 0x0000#16 ↔ ∀ b ∈ bytes, b = 0#8 := by
    obtain ⟨-, hspec⟩ := onesSum_spec (bytes := bytes) (by omega)
    rw [← sumNat_eq_zero_iff, ← hspec, ← BitVec.toNat_inj, BitVec.toNat_zero]
  have hcomplement : ∀ h : Half, checksum bytes = ~~~h ↔ onesSum bytes = h :=
    fun _ => BitVec.not_inj
  exact ⟨hzero, (hcomplement 0x0000#16).trans hzero, hcomplement 0xFFFF#16⟩

/-- Settles O28: the word sum is a sum over the list of words. -/
theorem wordOrderDoesNotMatter : Obligations.WordOrderDoesNotMatter := by
  intro words words' hperm
  apply onesSum_congr
  rw [sumNat_flatMap, sumNat_flatMap, (hperm.map BitVec.toNat).sum_eq]

/-- Settles O29: both sides are 256 times the word sum modulo 65535. -/
theorem byteSwapSwapsSum : Obligations.ByteSwapSwapsSum :=
  fun _ hlen heven => onesSum_swapPairs (by omega) heven

/-- Settles O30: the word sum pads an odd tail itself. -/
theorem oddLengthPadsWithZero : Obligations.OddLengthPadsWithZero :=
  fun _ hodd => (onesSum_append_zero hodd).symm

/-- Settles O31: the word sums add up, and one fold of two sums keeps residue and zero. -/
theorem evenSplitAddsSums : Obligations.EvenSplitAddsSums :=
  fun _ _ hlen heven => onesSum_append (by omega) heven

/-- Settles O32: an odd sequence has the sum, and so the checksum, of the padded one. -/
theorem appendedChecksumSumsToOnes : Obligations.AppendedChecksumSumsToOnes := by
  intro bytes hlen
  refine ⟨fun heven => onesSum_append_checksum (by omega) heven, fun hodd => ?_⟩
  have hchecksum : checksum bytes = checksum (bytes ++ [0#8]) := by
    rw [checksum, checksum, onesSum_append_zero hodd]
  have hlength : (bytes ++ [0#8]).length = bytes.length + 1 := by simp
  have h := onesSum_append_checksum (bytes := bytes ++ [0#8]) (by omega) (by omega)
  rwa [List.append_assoc, ← hchecksum] at h

/-- Settles O33: the checksum of the swapped sum is the swapped checksum. -/
theorem hostOrderWritesSameBytes : Obligations.HostOrderWritesSameBytes := by
  intro bytes hlen
  have hlittle := onesSumLittle_eq_swapHalf hlen
  refine ⟨hlittle, ?_⟩
  rw [hlittle, not_swapHalf, ← checksum, swapHalf, loByte_beHalf, hiByte_beHalf]

end Sys2Proof.Machine

namespace Sys2Proof.Machine

/-! SUPPORT. When a command faults: after each check it has passed, at the first unwritten byte it
reads (93_implementation_defined.md U1). -/

/-- A command faults behind a check exactly when the check passes and what follows faults. -/
theorem faults_after_check {c : Prop} [Decidable c] {t : State} {o : Result} :
    (∃ f, (if c then .next t else o) = .fault f) ↔ ¬ c ∧ ∃ f, o = .fault f := by
  by_cases hc : c <;> simp [hc]

/-- A region read that completes on every content faults exactly on an unwritten byte. -/
theorem withRegion_faults_iff {s : State} {a n : Nat} (result : List Byte → State) :
    (∃ f, withRegion s a n (fun bs => .next (result bs)) = .fault f) ↔ s.buf.hasUnwritten a n := by
  constructor
  · rintro ⟨f, hf⟩
    rcases withRegion_cases s a n (fun bs => .next (result bs)) with
      ⟨bs, -, -, hnext⟩ | ⟨o, hao, hon, hnone, -, -⟩
    · rw [hnext] at hf
      cases hf
    · exact ⟨o - a, by omega, by rwa [Nat.add_sub_cancel' hao]⟩
  · intro hun
    obtain ⟨o, -, -, -, hfault⟩ := withRegion_of_hasUnwritten hun fun bs => .next (result bs)
    exact ⟨_, hfault⟩

/-- A byte read faults on an unwritten byte, or as what follows does with the byte. -/
theorem withByte_faults_iff {s : State} {a : Nat} {go : Byte → Result} :
    (∃ f, withByte s a go = .fault f) ↔
      s.buf.byte a = none ∨ ∃ b, s.buf.byte a = some b ∧ ∃ f, go b = .fault f := by
  cases hb : s.buf.byte a with
  | none => simp [withByte_none hb]
  | some b => simp [withByte_some hb]

theorem execCsum_faults_iff (s : State) :
    (∃ f, execCsum s = .fault f) ↔
      s.baseOff + s.lenBytes ≤ s.bufBytes ∧ s.buf.hasUnwritten s.baseOff s.lenBytes := by
  unfold execCsum
  rw [faults_after_check, withRegion_faults_iff, gt_iff_lt, not_lt]

theorem execEncode_faults_iff (s : State) :
    (∃ f, execEncode s = .fault f) ↔
      5 ≤ s.hlenField.toNat ∧ s.headerBytes ≤ s.tlenField.toNat ∧
      s.baseOff + s.headerBytes ≤ s.bufBytes ∧
      s.buf.hasUnwritten (s.baseOff + 20) (s.headerBytes - 20) := by
  unfold execEncode
  simp only [faults_after_check, withRegion_faults_iff, gt_iff_lt, not_lt]

theorem execDecode_faults_iff (s : State) :
    (∃ f, execDecode s = .fault f) ↔
      s.baseOff + s.lenBytes ≤ s.bufBytes ∧ 20 ≤ s.lenBytes ∧
      (s.buf.byte s.baseOff = none ∨
        ∃ first, s.buf.byte s.baseOff = some first ∧ 5 ≤ hlenOf first ∧
          4 * hlenOf first ≤ s.lenBytes ∧ s.buf.hasUnwritten s.baseOff (4 * hlenOf first)) := by
  unfold execDecode
  simp only [faults_after_check, withByte_faults_iff, withRegion_faults_iff, gt_iff_lt, not_lt]

/-! Family 40_checksum.md: the CSUM command, and where the commands fault. -/

/-- CSUM of a region past the buffer raises BOUNDS (R92). -/
theorem execCsum_bounds {s : State} (h : s.baseOff + s.lenBytes > s.bufBytes) :
    execCsum s = .next (raiseError .bounds s) :=
  if_pos h

/-- Settles O7: CSUM ends in `raiseError` or in `succeed`, whose frames are known. -/
theorem csumComputesChecksum : Obligations.CsumComputesChecksum := by
  refine ⟨by decide, fun s => ⟨fun hpast => ?_, fun bytes hfit hlen hholds => ?_⟩⟩
  · exact ⟨_, execCsum_bounds hpast, raiseError_ends .bounds s⟩
  · exact ⟨_, execCsum_run hfit hlen hholds, succeed_completed _, rfl⟩

/-- Settles O8: the empty region is the empty sequence, which sums to 0. -/
theorem csumOfEmptyRegion : Obligations.CsumOfEmptyRegion := by
  intro s hlenField
  have hlen : s.lenBytes = 0 := by
    rw [State.lenBytes, hlenField, BitVec.toNat_zero]
  refine ⟨fun hfit => ?_, fun hpast => ?_⟩
  · have hholds : s.buf.holds s.baseOff [] := fun k hk => absurd hk (Nat.not_lt_zero k)
    have hresult : resultWord (onesSum []) = 0x0000FFFF#32 := by decide
    exact ⟨_, execCsum_run (by omega) (List.length_nil.trans hlen.symm) hholds, hresult,
      succeed_errField _⟩
  · exact ⟨_, execCsum_bounds (by omega), raiseError_ends .bounds s⟩

/-- Settles O9: both results are the result word of the same bytes. -/
theorem csumDependsOnRegionOnly : Obligations.CsumDependsOnRegionOnly :=
  fun _ _ _ hfit hfit' hlen hlen' hholds hholds' =>
    ⟨_, _, execCsum_run hfit hlen hholds, execCsum_run hfit' hlen' hholds', rfl⟩

/-- Settles O25: the conditions are those of each command's checks and read; that the offset is an
unwritten one of the buffer holds for every command. -/
theorem engineFaultsOnlyOnUnwrittenBytes : Obligations.EngineFaultsOnlyOnUnwrittenBytes := by
  intro s
  refine ⟨execCsum_faults_iff s, execEncode_faults_iff s, execDecode_faults_iff s,
    fun i o hfault => ?_, fun i r hrefused => ?_⟩
  · rcases exec_endsOrFaults i s with ⟨t, hnext⟩ | ⟨a, ha, hlt, hnone⟩
    · rw [hnext] at hfault
      cases hfault
    · rw [ha] at hfault
      cases hfault
      exact ⟨hnone, hlt⟩
  · rcases exec_endsOrFaults i s with ⟨t, hnext⟩ | ⟨a, ha, -, -⟩
    · rw [hnext] at hrefused
      cases hrefused
    · rw [ha] at hrefused
      cases hrefused

end Sys2Proof.Machine

namespace Sys2Proof.Machine

/-! SUPPORT. ENCODE in terms of its operands: when it completes without error, on which option bytes,
and what the buffer then holds (41_codec.md R101 to R104). -/

/-- ENCODE passes its checks, and `options` are the option bytes it reads (R103, R104). -/
structure State.EncodesWith (s : State) (options : List Byte) : Prop where
  hlen : 5 ≤ s.hlenField.toNat
  tlen : s.headerBytes ≤ s.tlenField.toNat
  fits : s.baseOff + s.headerBytes ≤ s.bufBytes
  length : options.length = s.headerBytes - 20
  held : s.buf.holds (s.baseOff + 20) options

/-- The image ENCODE sums: the field registers with version 4 and the checksum field zero (R99,
R101). -/
def State.encodedImage (s : State) (options : List Byte) : List Byte :=
  headerOf (setVer s.hdr0 4#4) s.hdr1 (clearChecksum s.hdr2) s.hdr3 s.hdr4 options

/-- The header ENCODE writes: the same with the checksum of the image in its field (R102). -/
def State.encodedHeader (s : State) (options : List Byte) : List Byte :=
  headerOf (setVer s.hdr0 4#4) s.hdr1 (setChecksumField s.hdr2 (~~~onesSum (s.encodedImage options)))
    s.hdr3 s.hdr4 options

/-- The option bytes of a header follow its 20 fixed bytes (30_encoding.md R70). -/
theorem headerOf_options (w0 w1 w2 w3 w4 : Word) (options : List Byte) (k : Nat) :
    (headerOf w0 w1 w2 w3 w4 options)[k + 20]? = options[k]? := rfl

/-- The bytes ENCODE writes are the encoded header. -/
theorem putChecksum_encodedImage (s : State) (options : List Byte) :
    putChecksum (s.encodedImage options) (~~~onesSum (s.encodedImage options)) =
      s.encodedHeader options := by
  rw [State.encodedHeader, ← setChecksumField_twice s.hdr2 0#16]
  exact putChecksum_headerOf ..

theorem encodeWrites_encodedImage_buf (s : State) (options : List Byte) :
    (encodeWrites s (s.encodedImage options)).buf =
      s.buf.writeList s.baseOff (s.encodedHeader options) := by
  rw [encodeWrites_buf, putChecksum_encodedImage]

/-- After ENCODE the buffer holds the encoded header at BASE. -/
theorem encodeWrites_holds_encodedHeader (s : State) (options : List Byte) :
    (encodeWrites s (s.encodedImage options)).buf.holds s.baseOff (s.encodedHeader options) := by
  rw [encodeWrites_encodedImage_buf]
  exact Memory.holds_writeList _ _ _

section
variable {s : State} {options : List Byte}

/-- ENCODE completes without error exactly on the option bytes it encodes with. -/
theorem execEncode_succeeds_iff {t : State} :
    execEncode s = .next t ∧ t.errField = 0#4 ↔
      ∃ options, s.EncodesWith options ∧
        t = succeed (encodeWrites s (s.encodedImage options)) := by
  constructor
  · rintro ⟨h, herr⟩
    have noError : ∀ e, t ≠ raiseError e s := by
      rintro e rfl
      exact e.code_ne_zero ((raiseError_errField e s).symm.trans herr)
    rcases execEncode_next h with ⟨-, ht⟩ | ⟨-, -, ht⟩ | ⟨-, -, -, ht⟩ |
      ⟨hlen, htlen, hfits, options, hlength, hheld, ht⟩
    · exact absurd ht (noError _)
    · exact absurd ht (noError _)
    · exact absurd ht (noError _)
    · rw [packFields_append] at ht
      exact ⟨options, ⟨hlen, htlen, hfits, hlength, hheld⟩, ht⟩
  · rintro ⟨options, h, rfl⟩
    have hrun := execEncode_run h.hlen h.tlen h.fits h.length h.held
    rw [packFields_append] at hrun
    exact ⟨hrun, succeed_errField _⟩

namespace State.EncodesWith

theorem total_length (h : s.EncodesWith options) : 20 + options.length = s.headerBytes := by
  have hlen := h.hlen
  have hlength := h.length
  unfold State.headerBytes at *
  omega

theorem length_encodedHeader (h : s.EncodesWith options) :
    (s.encodedHeader options).length = s.headerBytes :=
  (headerOf_length ..).trans h.total_length

theorem exec (h : s.EncodesWith options) :
    Machine.exec .encode s = .next (succeed (encodeWrites s (s.encodedImage options))) :=
  (execEncode_succeeds_iff.2 ⟨options, h, rfl⟩).1

/-- ENCODE writes no byte outside the header. -/
theorem byte_outside (h : s.EncodesWith options) {a : Nat}
    (ha : ¬ (s.baseOff ≤ a ∧ a < s.baseOff + s.headerBytes)) :
    (encodeWrites s (s.encodedImage options)).buf.byte a = s.buf.byte a := by
  rw [encodeWrites_encodedImage_buf, Memory.byte_writeList, h.length_encodedHeader, if_neg ha]

end State.EncodesWith
end

/-- Settles O10: ENCODE passes its checks and writes the encoded header. -/
theorem encodeWritesHeader : Obligations.EncodeWritesHeader := by
  intro s options hlen htlen hfits hlength hheld w0 sum w2
  have h : s.EncodesWith options := ⟨hlen, htlen, hfits, hlength, hheld⟩
  refine ⟨_, h.exec, succeed_completed _, ?_, fun _ ha => ?_, ?_⟩
  · rw [succeed_buf]
    exact encodeWrites_holds_encodedHeader s options
  · rw [succeed_buf, h.byte_outside ha]
  · apply State.ext
    -- Compared by evaluation the two buffers would be written out.
    case buf => with_reducible rfl
    all_goals rfl

/-- Settles O11: the checks stand in this order before anything is read or written. -/
theorem encodeRaisesErrors : Obligations.EncodeRaisesErrors := by
  intro s
  refine ⟨fun hshort => ?_, fun hlen htlen => ?_, fun hlen htlen hpast => ?_⟩
  · exact ⟨_, if_pos hshort, raiseError_ends .hlenBad s⟩
  · exact ⟨_, (if_neg (by omega)).trans (if_pos htlen), raiseError_ends .tlenShort s⟩
  · exact ⟨_, (if_neg (by omega)).trans ((if_neg (Nat.not_lt.2 htlen)).trans (if_pos hpast)),
      raiseError_ends .bounds s⟩

/-! SUPPORT. ENCODE twice (41_codec.md R105). -/

/-- Buffers that hold sequences of one length at one offset and agree there hold the same
sequence. -/
theorem Memory.holds_ext {m m' : Memory} {a n : Nat} {l l' : List Byte} (hl : l.length = n)
    (hl' : l'.length = n) (h : m.holds a l) (h' : m'.holds a l')
    (hbytes : ∀ k, k < n → m.byte (a + k) = m'.byte (a + k)) : l = l' := by
  apply List.ext_getElem?
  intro k
  by_cases hk : k < n
  · rw [← h k (by omega), ← h' k (by omega), hbytes k hk]
  · rw [List.getElem?_eq_none (by omega), List.getElem?_eq_none (by omega)]

/-- Writing what the buffer already holds changes nothing. -/
theorem Memory.writeList_of_holds {m : Memory} (hwf : m.wf = true) {a : Nat} {bs : List Byte}
    (h : m.holds a bs) : m.writeList a bs = m := by
  refine Memory.ext_of_wf (Memory.wf_writeList hwf a bs) hwf fun o => ?_
  rw [Memory.byte_writeList]
  split_ifs with ho
  · rw [← h (o - a) (by omega), Nat.add_sub_cancel' ho.1]
  · rfl

/-- Completing a completed command changes nothing. -/
theorem succeed_succeed (s : State) : succeed (succeed s) = succeed s := by
  apply State.ext
  case status =>
    apply BitVec.eq_of_getLsbD_eq
    intro j _
    simp only [succeed_status_getLsbD]
    split_ifs <;> rfl
  all_goals rfl

/-- Two states with the same field registers as ENCODE takes them: HDR0 without its version, HDR2
without its checksum (R105). -/
structure State.SameFields (s s' : State) : Prop where
  hdr0 : setVer s.hdr0 4#4 = setVer s'.hdr0 4#4
  hdr1 : s.hdr1 = s'.hdr1
  hdr2 : ∀ c, setChecksumField s.hdr2 c = setChecksumField s'.hdr2 c
  hdr3 : s.hdr3 = s'.hdr3
  hdr4 : s.hdr4 = s'.hdr4

namespace State.SameFields
variable {s s' : State}

theorem hlenField (h : s.SameFields s') : s.hlenField = s'.hlenField := by
  rw [State.hlenField, ← setVer_hlen _ 4#4, h.hdr0, setVer_hlen, State.hlenField]

theorem tlenField (h : s.SameFields s') : s.tlenField = s'.tlenField := by
  rw [State.tlenField, ← setVer_tlen _ 4#4, h.hdr0, setVer_tlen, State.tlenField]

theorem headerBytes (h : s.SameFields s') : s.headerBytes = s'.headerBytes := by
  rw [State.headerBytes, h.hlenField, State.headerBytes]

theorem encodedImage (h : s.SameFields s') (options : List Byte) :
    s.encodedImage options = s'.encodedImage options := by
  have hdr2 : clearChecksum s.hdr2 = clearChecksum s'.hdr2 := h.hdr2 0#16
  rw [State.encodedImage, h.hdr0, h.hdr1, hdr2, h.hdr3, h.hdr4, State.encodedImage]

theorem encodedHeader (h : s.SameFields s') (options : List Byte) :
    s.encodedHeader options = s'.encodedHeader options := by
  rw [State.encodedHeader, h.hdr0, h.hdr1, h.hdr2, h.hdr3, h.hdr4, h.encodedImage,
    State.encodedHeader]

end State.SameFields

/-- ENCODE changes only what it does not take from the field registers. -/
theorem sameFields_encodeWrites (s : State) (h : List Byte) : (encodeWrites s h).SameFields s where
  hdr0 := setVer_twice ..
  hdr1 := rfl
  hdr2 := fun _ => setChecksumField_twice ..
  hdr3 := rfl
  hdr4 := rfl

/-- What ENCODE left encodes again, with the same option bytes. -/
theorem State.EncodesWith.again {s : State} {options : List Byte} (h : s.EncodesWith options) :
    (encodeWrites s (s.encodedImage options)).EncodesWith options := by
  have hsame := sameFields_encodeWrites s (s.encodedImage options)
  have hheader : (encodeWrites s (s.encodedImage options)).headerBytes = s.headerBytes :=
    hsame.headerBytes
  have hbase : (encodeWrites s (s.encodedImage options)).baseOff = s.baseOff := rfl
  refine ⟨?_, ?_, ?_, ?_, fun k hk => ?_⟩
  · rw [hsame.hlenField]
    exact h.hlen
  · rw [hheader, hsame.tlenField]
    exact h.tlen
  · rw [hheader]
    exact h.fits
  · rw [hheader]
    exact h.length
  · have hlength := h.length
    have hread := encodeWrites_holds_encodedHeader s options (k + 20)
      (by rw [h.length_encodedHeader]; omega)
    rw [hbase, Nat.add_assoc, Nat.add_comm 20 k, hread]
    exact headerOf_options ..

/-- Completion leaves ENCODE's operands. -/
theorem State.EncodesWith.succeed {s : State} {options : List Byte} (h : s.EncodesWith options) :
    (succeed s).EncodesWith options :=
  ⟨h.hlen, h.tlen, h.fits, h.length, h.held⟩

/-- The writes of an ENCODE, done again, change nothing. -/
theorem encodeWrites_again {s : State} (hwf : s.buf.wf = true) (options : List Byte) {t : State}
    (ht : t = succeed (encodeWrites s (s.encodedImage options))) :
    encodeWrites t (t.encodedImage options) = t := by
  have hsame : t.SameFields s := by
    have := sameFields_encodeWrites s (s.encodedImage options)
    rw [ht]
    exact ⟨this.hdr0, this.hdr1, this.hdr2, this.hdr3, this.hdr4⟩
  have hbase : t.baseOff = s.baseOff := by rw [ht]; rfl
  apply State.ext
  case buf =>
    have hbuf : t.buf = (encodeWrites s (s.encodedImage options)).buf := by rw [ht, succeed_buf]
    rw [encodeWrites_encodedImage_buf, hsame.encodedHeader, hbase]
    apply Memory.writeList_of_holds
    · rw [hbuf, encodeWrites_encodedImage_buf]
      exact Memory.wf_writeList hwf _ _
    · rw [hbuf]
      exact encodeWrites_holds_encodedHeader s options
  case hdr0 => rw [encodeWrites_hdr0, hsame.hdr0, ht, succeed_hdr0, encodeWrites_hdr0]
  case hdr2 =>
    rw [encodeWrites_hdr2, hsame.hdr2, hsame.encodedImage, ht, succeed_hdr2, encodeWrites_hdr2]
  case result =>
    rw [encodeWrites_result, hsame.encodedImage, ht, succeed_result, encodeWrites_result]
  case payload =>
    rw [encodeWrites_payload, hsame.headerBytes, hsame.tlenField, ht, succeed_payload,
      encodeWrites_payload]
  all_goals rfl

/-- An ENCODE repeated answers the state the first one left. -/
theorem exec_encode_again {s t : State} (hwf : s.buf.wf = true) (h : exec .encode s = .next t)
    (herr : t.errField = 0#4) : exec .encode t = .next t := by
  obtain ⟨options, hs, ht⟩ := execEncode_succeeds_iff.1 ⟨h, herr⟩
  have htwice : t.EncodesWith options := ht ▸ hs.again.succeed
  rw [htwice.exec, encodeWrites_again hwf options ht, ht, succeed_succeed]

/-- Settles O12: both write what the field registers and option bytes encode to; and the encoded
header encodes to itself. -/
theorem encodeIsDeterministic : Obligations.EncodeIsDeterministic := by
  refine ⟨?_, fun s t hwf h herr => exec_encode_again hwf h herr⟩
  intro s s' t t' h h' herr herr' hbase hhdr0 hhdr1 hhdr2 hhdr3 hhdr4 hbytes
  obtain ⟨options, hs, rfl⟩ := execEncode_succeeds_iff.1 ⟨h, herr⟩
  obtain ⟨options', hs', rfl⟩ := execEncode_succeeds_iff.1 ⟨h', herr'⟩
  have hsame : s.SameFields s' := by
    refine ⟨?_, hhdr1, fun c => ?_, hhdr3, hhdr4⟩
    · rw [setVer, hhdr0, setVer]
    · rw [setChecksumField, hhdr2, setChecksumField]
  have hoptions : options = options' := by
    have hheld' := hs'.held
    rw [← hbase] at hheld'
    refine Memory.holds_ext hs.length (hsame.headerBytes ▸ hs'.length) hs.held hheld' fun k hk => ?_
    rw [Nat.add_assoc]
    exact hbytes (20 + k) (by omega) (by omega)
  subst hoptions
  refine ⟨hsame.hdr0, ?_, ?_, ?_, fun k hk => ?_⟩
  · rw [succeed_hdr2, succeed_hdr2, encodeWrites_hdr2, encodeWrites_hdr2, hsame.hdr2,
      hsame.encodedImage]
  · rw [succeed_result, succeed_result, encodeWrites_result, encodeWrites_result,
      hsame.encodedImage]
  · rw [succeed_payload, succeed_payload, encodeWrites_payload, encodeWrites_payload,
      hsame.headerBytes, hsame.tlenField]
  · have hread := encodeWrites_holds_encodedHeader s options k
      (by rwa [hs.length_encodedHeader])
    have hread' := encodeWrites_holds_encodedHeader s' options k
      (by rwa [hs'.length_encodedHeader, ← hsame.headerBytes])
    rw [succeed_buf, succeed_buf, hread, hbase, hread', hsame.encodedHeader]

end Sys2Proof.Machine

namespace Sys2Proof.Machine

/-! SUPPORT. DECODE of a header given by its words (41_codec.md R98, R109, R110). -/

/-- DECODE runs on a header whose words are known. -/
theorem execDecode_headerOf {s : State} {w0 w1 w2 w3 w4 : Word} {options : List Byte}
    (hfits : s.baseOff + s.lenBytes ≤ s.bufBytes)
    (hhlen : 20 + options.length = 4 * (w0.extractLsb' 24 4).toNat)
    (hlen : 20 + options.length ≤ s.lenBytes)
    (hheld : s.buf.holds s.baseOff (headerOf w0 w1 w2 w3 w4 options)) :
    execDecode s = .next (succeed (decodeWrites s (headerOf w0 w1 w2 w3 w4 options))) := by
  have hlength := headerOf_length w0 w1 w2 w3 w4 options
  have hfirst : s.buf.byte s.baseOff = some (w0.extractLsb' 24 8) := hheld 0 (by omega)
  apply execDecode_run hfits hfirst _ _ _ hheld <;> rw [hlenOf_first] <;> omega

/-- STATUS after a DECODE without error, from the header's bytes (R109). -/
theorem succeed_decodeWrites_checked (s : State) (h : List Byte) :
    let cb := csumBad (checksum (headerImage h)) (beHalf (byteAt h 10) (byteAt h 11))
    let vb := verBad ((byteAt h 0).extractLsb' 4 4)
    let tm := tlenMismatch (beHalf (byteAt h 2) (byteAt h 3)) s.lenField
    CheckedStatus s.status (succeed (decodeWrites s h)).status cb vb tm
      (acceptGate s.strict cb vb tm) := fun j _ => by
  rw [succeed_status_getLsbD, decodeWrites_status, writeChecks_status_getLsbD]
  rfl

/-- The ERR field of a STATUS word known bit by bit after a DECODE without error. -/
theorem errField_of_checked {old : Word} {t : State} {cb vb tm acc : Bool}
    (h : CheckedStatus old t.status cb vb tm acc) : t.errField = 0#4 :=
  extract_eq_zero_iff.2 fun j hlo hhi => by
    rw [h j (by omega), if_neg (by omega), if_neg (by omega), if_pos (by omega)]

/-- Settles O13: the words and fields of a header are those it was made of. -/
theorem decodeUnpacksHeader : Obligations.DecodeUnpacksHeader := by
  intro s w0 w1 w2 w3 w4 options n sum tlen csumBad verBad tlenMismatch hfits hhlen hlen hheld
  have hchecked := succeed_decodeWrites_checked s (headerOf w0 w1 w2 w3 w4 options)
  obtain ⟨hver, -, htlen, hcsum⟩ := fields_headerOf w0 w1 w2 w3 w4 options
  obtain ⟨hw0, hw1, hw2, hw3, hw4⟩ := wordAt_headerOf w0 w1 w2 w3 w4 options
  rw [hver, htlen, hcsum, headerImage_headerOf] at hchecked
  refine ⟨_, execDecode_headerOf hfits hhlen hlen hheld, hchecked, ?_⟩
  apply State.ext
  case hdr0 => exact hw0
  case hdr1 => exact hw1
  case hdr2 => exact hw2
  case hdr3 => exact hw3
  case hdr4 => exact hw4
  case result => rw [succeed_result, decodeWrites_result, headerImage_headerOf]; rfl
  case payload => rw [succeed_payload, decodeWrites_payload, htlen, headerOf_length]; rfl
  all_goals simp

/-- A region that passes the first two checks is no header when HLEN of its first byte is below 5
(R109). -/
theorem execDecode_hlenBad {s : State} {first : Byte}
    (hfits : s.baseOff + s.lenBytes ≤ s.bufBytes) (hlen : 20 ≤ s.lenBytes)
    (hfirst : s.buf.byte s.baseOff = some first) (hhlen : hlenOf first < 5) :
    execDecode s = .next (raiseError .hlenBad s) := by
  rw [execDecode, if_neg (by omega), if_neg (by omega), withByte_some hfirst, if_pos hhlen]

/-- A header longer than LEN is an overrun (R109). -/
theorem execDecode_overrun {s : State} {first : Byte}
    (hfits : s.baseOff + s.lenBytes ≤ s.bufBytes) (hlen : 20 ≤ s.lenBytes)
    (hfirst : s.buf.byte s.baseOff = some first) (hhlen : 5 ≤ hlenOf first)
    (hover : 4 * hlenOf first > s.lenBytes) :
    execDecode s = .next (raiseError .overrun s) := by
  rw [execDecode, if_neg (by omega), if_neg (by omega), withByte_some hfirst, if_neg (by omega),
    if_pos hover]

/-- Settles O14: the checks stand in this order, the last two after the first byte is read. -/
theorem decodeRaisesErrors : Obligations.DecodeRaisesErrors := by
  intro s
  refine ⟨fun hpast => ?_, fun hfits hshort => ?_, fun first hfits hlen hfirst =>
    ⟨fun hhlen => ?_, fun hhlen hover => ?_⟩⟩
  · exact ⟨_, if_pos hpast, raiseError_ends .bounds s⟩
  · exact ⟨_, (if_neg (Nat.not_lt.2 hfits)).trans (if_pos hshort), raiseError_ends .short s⟩
  · exact ⟨_, execDecode_hlenBad hfits hlen hfirst hhlen, raiseError_ends .hlenBad s⟩
  · exact ⟨_, execDecode_overrun hfits hlen hfirst hhlen hover, raiseError_ends .overrun s⟩

/-- Settles O17: the payload is what LEN and TLEN leave after the 20 bytes of the header. -/
theorem payloadStartsAtTwenty : Obligations.PayloadStartsAtTwenty := by
  intro s w0 w1 w2 w3 w4 k hfits hhlen hlen htlen hheld
  have hn : 20 + ([] : List Byte).length = 4 * (w0.extractLsb' 24 4).toNat := by
    rw [hhlen]
    rfl
  obtain ⟨t, hexec, hchecked, ht⟩ :=
    decodeUnpacksHeader s w0 w1 w2 w3 w4 [] hfits hn (by simp [hlen]) hheld
  have hpayload : t.payload = payloadWord k 20 := by
    rw [ht]
    simp [payloadWord, hlen, htlen]
  have hk : k < 2 ^ 16 := by
    have := (w0.extractLsb' 0 16).isLt
    omega
  refine ⟨t, hexec, errField_of_checked hchecked, ?_, ?_⟩
  · rw [hpayload, payloadWord_poff]
    rfl
  · rw [hpayload, payloadWord_plen, BitVec.toNat_ofNat, Nat.mod_eq_of_lt hk]

/-! SUPPORT. The stored checksum and the sum of a header (41_codec.md R99, R114). -/

/-- A word holds its own checksum field. -/
theorem setChecksumField_self (w : Word) : setChecksumField w (w.extractLsb' 0 16) = w := by
  apply BitVec.eq_of_getLsbD_eq
  intro j hj
  rw [setChecksumField, BitVec.getLsbD_append]
  split_ifs with h
  · rw [extract_getLsbD _ _ _ _ h, Nat.zero_add]
  · rw [extract_getLsbD _ _ _ _ (by omega), Nat.add_sub_cancel' (by omega)]

/-- The stored checksum is one more word in the header's sum. -/
theorem sumNat_headerOf (w0 w1 w2 w3 w4 : Word) (options : List Byte) :
    sumNat (headerOf w0 w1 w2 w3 w4 options) =
      sumNat (headerOf w0 w1 (clearChecksum w2) w3 w4 options) +
        (w2.extractLsb' 0 16).toNat := by
  have hstored : bytesOfWord w2 = [w2.extractLsb' 24 8, w2.extractLsb' 16 8,
      hiByte (w2.extractLsb' 0 16), loByte (w2.extractLsb' 0 16)] := by
    rw [← bytesOfWord_setChecksumField, setChecksumField_self]
  have hclear : bytesOfWord (clearChecksum w2) =
      [w2.extractLsb' 24 8, w2.extractLsb' 16 8, hiByte 0#16, loByte 0#16] :=
    bytesOfWord_setChecksumField w2 0#16
  simp only [headerOf, hstored, hclear]
  simp only [bytesOfWord, List.cons_append, List.nil_append, sumNat, hiByte_toNat, loByte_toNat,
    BitVec.toNat_zero]
  omega

/-- A stored 0x0000 or 0xFFFF leaves an image's sum of 0xFFFF as it is (R114): neither changes the
word sum modulo 65535, nor makes it 0. -/
theorem onesSum_headerOf_zeros {w0 w1 w2 w3 w4 : Word} {options : List Byte}
    (hlength : 20 + options.length ≤ 65536)
    (himage : onesSum (headerOf w0 w1 (clearChecksum w2) w3 w4 options) = 0xFFFF#16)
    (hstored : w2.extractLsb' 0 16 = 0xFFFF#16 ∨ w2.extractLsb' 0 16 = 0x0000#16) :
    onesSum (headerOf w0 w1 w2 w3 w4 options) = 0xFFFF#16 := by
  rw [onesSum_eq_iff (by simpa using hlength)] at himage ⊢
  rw [sumNat_headerOf]
  have hvalue : (w2.extractLsb' 0 16).toNat = 65535 ∨ (w2.extractLsb' 0 16).toNat = 0 :=
    hstored.imp (congrArg BitVec.toNat) (congrArg BitVec.toNat)
  simp only [BitVec.toNat_ofNat] at himage ⊢
  omega

/-- Settles O16: the flag compares with the complement of 0xFFFF, the sum is modulo 65535. -/
theorem negativeZeroIsRejected : Obligations.NegativeZeroIsRejected := by
  intro s w0 w1 w2 w3 w4 options hfits hhlen hlen hheld himage
  have hnibble := (w0.extractLsb' 24 4).isLt
  obtain ⟨t, hexec, hchecked, -⟩ :=
    decodeUnpacksHeader s w0 w1 w2 w3 w4 options hfits hhlen hlen hheld
  refine ⟨onesSum_headerOf_zeros (by omega) himage, t, hexec, ?_⟩
  have hflag : t.csumBadFlag = decide (w2.extractLsb' 0 16 ≠ ~~~0xFFFF#16) :=
    himage ▸ hchecked 8 (by omega)
  rw [hflag, decide_eq_true_iff]
  rfl

/-- A header of version 4 with the checksum of its image and LEN = TLEN passes every check, under
either STRICT (41_codec.md R110, R112, R113). -/
theorem exec_decode_valid {s : State} {w0 w1 w2 w3 w4 : Word} {options : List Byte}
    (hfits : s.baseOff + s.lenBytes ≤ s.bufBytes)
    (hhlen : 20 + options.length = 4 * (w0.extractLsb' 24 4).toNat)
    (hlen : 20 + options.length ≤ s.lenBytes)
    (hheld : s.buf.holds s.baseOff (headerOf w0 w1 w2 w3 w4 options))
    (hcsum : w2.extractLsb' 0 16 = ~~~onesSum (headerOf w0 w1 (clearChecksum w2) w3 w4 options))
    (hver : w0.extractLsb' 28 4 = 4#4) (htlen : w0.extractLsb' 0 16 = s.lenField) :
    ∃ t, exec .decode s = .next t ∧ CheckedStatus s.status t.status false false false true ∧
      t = { s with
        status := t.status
        hdr0 := w0
        hdr1 := w1
        hdr2 := w2
        hdr3 := w3
        hdr4 := w4
        result := resultWord (onesSum (headerOf w0 w1 (clearChecksum w2) w3 w4 options))
        payload := payloadWord (s.lenBytes - (20 + options.length)) (20 + options.length)
        pend := t.pend } := by
  obtain ⟨t, hexec, hchecked, ht⟩ :=
    decodeUnpacksHeader s w0 w1 w2 w3 w4 options hfits hhlen hlen hheld
  have hmin : min (w0.extractLsb' 0 16).toNat s.lenBytes = s.lenBytes := by
    rw [htlen]
    exact Nat.min_self _
  have hgate : (!s.strict || !(false || false || false)) = true := by simp
  rw [hmin] at ht
  rw [decide_eq_false (not_not.2 hcsum), decide_eq_false (not_not.2 hver),
    decide_eq_false (not_not.2 htlen), hgate] at hchecked
  exact ⟨t, hexec, hchecked, ht⟩

/-- Settles O19: the encoded header passes every check of DECODE and unpacks to its own words. -/
theorem encodeDecodeRoundTrip : Obligations.EncodeDecodeRoundTrip := by
  intro s t u h herr hroom hsize hbase hlenField hbytes
  obtain ⟨options, hs, ht⟩ := execEncode_succeeds_iff.1 ⟨h, herr⟩
  have hn := hs.total_length
  have htlen := hs.tlen
  have hbaseOff : u.baseOff = s.baseOff := by
    rw [State.baseOff, hbase, ht, succeed_base, encodeWrites_base, State.baseOff]
  have hbufBytes : u.bufBytes = s.bufBytes := by
    rw [State.bufBytes, hsize, ht, succeed_bufSize, encodeWrites_bufSize, State.bufBytes]
  have hlenBytes : u.lenBytes = s.tlenField.toNat := by rw [State.lenBytes, hlenField]
  have hheld : u.buf.holds u.baseOff (s.encodedHeader options) := fun k hk => by
    have hwritten := encodeWrites_holds_encodedHeader s options k hk
    rw [hs.length_encodedHeader] at hk
    rw [hbaseOff, hbytes k hk, ht, succeed_buf, hwritten]
  have hhlen : 20 + options.length = 4 * ((setVer s.hdr0 4#4).extractLsb' 24 4).toNat := by
    rw [setVer_hlen, hn]
    rfl
  obtain ⟨v, hexec, hchecked, hv⟩ := exec_decode_valid (by omega) hhlen (by omega) hheld
    (by rw [setChecksumField_low, clearChecksum_set]; rfl) (setVer_ver ..)
    ((setVer_tlen ..).trans hlenField.symm)
  rw [clearChecksum_set, hlenBytes, hn] at hv
  have hpayload : t.payload = payloadWord (s.tlenField.toNat - s.headerBytes) s.headerBytes := by
    rw [ht, succeed_payload, encodeWrites_payload]
  refine ⟨v, hexec, hchecked, ?_, ?_⟩
  · rw [hpayload, ht]
    exact hv
  · rw [hv]
    rfl

/-! SUPPORT. What DECODE reads (41_codec.md R109). -/

/-- DECODE goes the same way on two states with the same size, BASE and LEN and the same header
bytes: to the same error, or to the writes of the same header. -/
theorem execDecode_sameWay {s s' t : State} (h : execDecode s = .next t)
    (hsize : s'.bufSize = s.bufSize) (hbase : s'.base = s.base) (hlen : s'.len = s.len)
    (hbytes : ∀ first, s.buf.byte s.baseOff = some first → ∀ k, k < max 1 (4 * hlenOf first) →
      s'.buf.byte (s.baseOff + k) = s.buf.byte (s.baseOff + k)) :
    (∃ e, t = raiseError e s ∧ execDecode s' = .next (raiseError e s')) ∨
    (∃ header, t = succeed (decodeWrites s header) ∧
      execDecode s' = .next (succeed (decodeWrites s' header))) := by
  have hbaseOff : s'.baseOff = s.baseOff := by rw [State.baseOff, hbase, State.baseOff]
  have hlenBytes : s'.lenBytes = s.lenBytes := by
    rw [State.lenBytes, State.lenField, hlen, State.lenBytes, State.lenField]
  have hbufBytes : s'.bufBytes = s.bufBytes := by rw [State.bufBytes, hsize, State.bufBytes]
  rcases execDecode_next h with ⟨hpast, ht⟩ | ⟨hfits, hshort, ht⟩ |
    ⟨hfits, hlen20, first, hfirst, hrest⟩
  · exact .inl ⟨_, ht, if_pos (by omega)⟩
  · exact .inl ⟨_, ht, (if_neg (by omega)).trans (if_pos (by omega))⟩
  have hsame := hbytes first hfirst
  have hfirst' : s'.buf.byte s'.baseOff = some first := by
    rw [hbaseOff, ← hfirst]
    exact hsame 0 (by omega)
  rcases hrest with ⟨hhlen, ht⟩ | ⟨hhlen, hover, ht⟩ | ⟨hhlen, hin, header, hl, hheld, ht⟩
  · exact .inl ⟨_, ht, execDecode_hlenBad (by omega) (by omega) hfirst' hhlen⟩
  · exact .inl ⟨_, ht, execDecode_overrun (by omega) (by omega) hfirst' hhlen (by omega)⟩
  · refine .inr ⟨header, ht, execDecode_run (by omega) hfirst' hhlen (by omega) hl fun k hk => ?_⟩
    rw [hbaseOff, hsame k (by omega), hheld k hk]

/-- What DECODE writes, and completion, neither look at the buffer nor change it. -/
theorem decodeWrites_withBuf (s : State) (h : List Byte) (m : Memory) :
    decodeWrites { s with buf := m } h = { decodeWrites s h with buf := m } := rfl

theorem succeed_withBuf (s : State) (m : Memory) :
    succeed { s with buf := m } = { succeed s with buf := m } := rfl

/-- Settles O18: neither the error nor the writes of a header look at the buffer. -/
theorem decodeIgnoresPayloadBytes : Obligations.DecodeIgnoresPayloadBytes := by
  intro s t m hbytes h
  rcases execDecode_sameWay h (s' := { s with buf := m }) rfl rfl rfl hbytes with
    ⟨e, rfl, hexec⟩ | ⟨header, rfl, hexec⟩
  · exact ⟨rfl, hexec⟩
  · rw [decodeWrites_withBuf, succeed_withBuf] at hexec
    exact ⟨by rw [succeed_buf, decodeWrites_buf], hexec⟩

/-- A DECODE that leaves 0 in ERR wrote its checks, the gate among them (R112). -/
theorem exec_decode_acceptFlag {s t : State} (h : exec .decode s = .next t)
    (herr : t.errField = 0#4) :
    t.acceptFlag = acceptGate s.strict t.csumBadFlag t.verBadFlag t.tlenMismatchFlag := by
  rcases exec_next h with ⟨e, rfl⟩ | ⟨⟨⟩, -⟩ | ⟨⟨⟩, -⟩ | ⟨-, header, rfl⟩
  · exact absurd ((raiseError_errField e s).symm.trans herr) e.code_ne_zero
  · have hchecked := succeed_decodeWrites_checked s header
    simp only [State.acceptFlag, State.csumBadFlag, State.verBadFlag, State.tlenMismatchFlag]
    rw [hchecked 8 (by omega), hchecked 9 (by omega), hchecked 10 (by omega),
      hchecked 11 (by omega)]
    rfl

/-- CTRL reaches neither the error of a DECODE nor its three check flags (R112). -/
theorem exec_decode_any_ctrl {s t : State} (h : exec .decode s = .next t) (c : Word) :
    ∃ u, exec .decode { s with ctrl := c } = .next u ∧ u.errField = t.errField ∧
      u.csumBadFlag = t.csumBadFlag ∧ u.verBadFlag = t.verBadFlag ∧
      u.tlenMismatchFlag = t.tlenMismatchFlag := by
  rcases execDecode_sameWay h (s' := { s with ctrl := c }) rfl rfl rfl fun _ _ _ _ => rfl with
    ⟨e, rfl, hexec⟩ | ⟨header, rfl, hexec⟩
  · exact ⟨_, hexec, rfl, rfl, rfl, rfl⟩
  · have hchecked := succeed_decodeWrites_checked s header
    have hchecked' := succeed_decodeWrites_checked { s with ctrl := c } header
    refine ⟨_, hexec, ?_, ?_, ?_, ?_⟩
    · rw [succeed_errField, succeed_errField]
    · exact (hchecked' 8 (by omega)).trans (hchecked 8 (by omega)).symm
    · exact (hchecked' 9 (by omega)).trans (hchecked 9 (by omega)).symm
    · exact (hchecked' 10 (by omega)).trans (hchecked 10 (by omega)).symm

/-- Settles O15: ACCEPT is the gate of STRICT and the flags, and stays clear after an error. -/
theorem acceptFollowsStrict : Obligations.AcceptFollowsStrict := by
  intro s t hinv hbusy h
  refine ⟨fun herr hstrict => ?_, fun herr hstrict => ?_, fun herr => ?_, exec_decode_any_ctrl h⟩
  · rw [exec_decode_acceptFlag h herr, hstrict]
    simp [acceptGate, and_assoc]
  · rw [exec_decode_acceptFlag h herr, hstrict]
    rfl
  · obtain ⟨-, -, -, haccept⟩ := checkFlagsComeFromDecode .decode s t hinv hbusy h (.inr herr)
    exact haccept

end Sys2Proof.Machine

namespace Sys2Proof.Machine

/-! Family 60_exceptions.md: illegal words, and which error a command reports. -/

/-- Settles O20: a word that is not legal decodes to the illegal command, which only raises. -/
theorem illegalWordEndsWithErrorOne : Obligations.IllegalWordEndsWithErrorOne := by
  intro s
  have hraises : ∀ w, ∃ t, exec (.illegal w) s = .next t ∧ EndsWithError s t 1#4 :=
    fun _ => ⟨_, rfl, raiseError_ends .illegalCmd s⟩
  refine ⟨hraises, fun w hillegal hbusy hpend => ?_⟩
  rw [engineTurn_pending (pendingWord_eq_some.2 ⟨hbusy, hpend⟩), decodeWord_of_not_legal hillegal]
  exact hraises w

/-- ERR after CSUM (R118). -/
theorem execCsum_errField {s t : State} (h : execCsum s = .next t) :
    t.errField = if s.baseOff + s.lenBytes > s.bufBytes then 2#4 else 0#4 := by
  rcases execCsum_next h with ⟨hpast, rfl⟩ | ⟨hfits, bs, -, -, rfl⟩
  · rw [if_pos hpast, raiseError_errField, CmdError.code]
  · rw [if_neg (Nat.not_lt.2 hfits), succeed_errField]

/-- ERR after ENCODE (R118). -/
theorem execEncode_errField {s t : State} (h : execEncode s = .next t) :
    t.errField =
      if s.hlenField.toNat < 5 then 4#4
      else if s.tlenField.toNat < s.headerBytes then 6#4
      else if s.baseOff + s.headerBytes > s.bufBytes then 2#4 else 0#4 := by
  rcases execEncode_next h with ⟨hbad, rfl⟩ | ⟨hhlen, hshort, rfl⟩ | ⟨hhlen, htlen, hpast, rfl⟩ |
    ⟨hhlen, htlen, hfits, options, -, -, rfl⟩
  · rw [if_pos hbad, raiseError_errField, CmdError.code]
  · rw [if_neg (Nat.not_lt.2 hhlen), if_pos hshort, raiseError_errField, CmdError.code]
  · rw [if_neg (Nat.not_lt.2 hhlen), if_neg (Nat.not_lt.2 htlen), if_pos hpast,
      raiseError_errField, CmdError.code]
  · rw [if_neg (Nat.not_lt.2 hhlen), if_neg (Nat.not_lt.2 htlen), if_neg (Nat.not_lt.2 hfits),
      succeed_errField]

/-- ERR after DECODE (R118). A DECODE that goes past SHORT and completes has read its first byte, so
the byte that stands in for an unwritten one decides no case. -/
theorem execDecode_errField {s t : State} (h : execDecode s = .next t) :
    t.errField =
      if s.baseOff + s.lenBytes > s.bufBytes then 2#4
      else if s.lenBytes < 20 then 3#4
      else if hlenOf ((s.buf.byte s.baseOff).getD 0#8) < 5 then 4#4
      else if 4 * hlenOf ((s.buf.byte s.baseOff).getD 0#8) > s.lenBytes then 5#4 else 0#4 := by
  rcases execDecode_next h with ⟨hpast, rfl⟩ | ⟨hfits, hshort, rfl⟩ |
    ⟨hfits, hlen, first, hfirst, hrest⟩
  · rw [if_pos hpast, raiseError_errField, CmdError.code]
  · rw [if_neg (Nat.not_lt.2 hfits), if_pos hshort, raiseError_errField, CmdError.code]
  rw [if_neg (Nat.not_lt.2 hfits), if_neg (Nat.not_lt.2 hlen), hfirst, Option.getD_some]
  rcases hrest with ⟨hbad, rfl⟩ | ⟨hhlen, hover, rfl⟩ | ⟨hhlen, hin, header, -, -, rfl⟩
  · rw [if_pos hbad, raiseError_errField, CmdError.code]
  · rw [if_neg (Nat.not_lt.2 hhlen), if_pos hover, raiseError_errField, CmdError.code]
  · rw [if_neg (Nat.not_lt.2 hhlen), if_neg (Nat.not_lt.2 hin), succeed_errField]

/-- Settles O21: each command's order of checks is the order of its codes, and a DECODE that raised
an error wrote no check flag. -/
theorem errorsFollowPriority : Obligations.ErrorsFollowPriority := by
  intro s t
  refine ⟨fun w h => ?_, execCsum_errField, execEncode_errField, execDecode_errField,
    fun h herr => ?_⟩
  · cases h
    exact raiseError_errField .illegalCmd s
  · exact extract_congr fun _ hlo hhi => exec_checkFlags_kept h (.inr herr) hlo hhi

end Sys2Proof.Machine

namespace Sys2Proof.Machine

/-! Family 70_reset_and_hazards.md: what the reset event and the reset state leave. -/

/-- The reset event leaves BUSY at 0 (70_reset_and_hazards.md R136). -/
@[simp] theorem blockReset_busyFlag (s : State) : (blockReset s).busyFlag = false := by
  obtain ⟨-, -, hreset⟩ := busyRisesOnlyByAcceptance
  exact hreset s

/-- The reset event leaves the interrupt output at 0 (10_state.md R35). -/
@[simp] theorem blockReset_irq (s : State) : (blockReset s).irq = false := by
  obtain ⟨-, -, -, hreset⟩ := interruptRisesAndFalls
  exact hreset s

/-- The reset event does not change BUF_BYTES (00_scope.md R6). -/
@[simp] theorem blockReset_bufBytes (s : State) : (blockReset s).bufBytes = s.bufBytes := rfl

/-- Settles O49: the registers are written with constants, BUSY at 0 leaves the engine idle whatever
was pending, and ID and CFG read as in any state. -/
theorem resetEventRestoresReset : Obligations.ResetEventRestoresReset := by
  intro s t
  have hengine : engineTurn t = .next t :=
    engineTurn_idle (pendingWord_of_idle (blockReset_busyFlag s))
  refine ⟨rfl, rfl, rfl, rfl, rfl, rfl, rfl, rfl, rfl, rfl, rfl, hengine, fun _ => rfl,
    blockReset_irq s, fun a hw hoff => ?_, fun a hw hoff => ?_⟩
  · obtain ⟨hid, -⟩ := registerMapReads t a hw
    exact hid hoff
  · obtain ⟨-, hcfg, -⟩ := registerMapReads t a hw
    obtain ⟨hlog, -⟩ := hcfg hoff
    exact ⟨hlog, blockReset_bufBytes s⟩

/-- Settles O50: each value stands in the definition of the reset state; IRQ is 0 because DONE is. -/
theorem resetStateValues : Obligations.ResetStateValues :=
  ⟨rfl, rfl, rfl, rfl, rfl, rfl, rfl, rfl, rfl, rfl, rfl, rfl, fun _ => rfl,
    irq_of_done_clear rfl, rfl⟩

/-- Settles O52: the reset state differs from the outcome of a reset event in the count of resets
alone, of which the invariant does not speak. -/
theorem invariantHoldsAtReset : Obligations.InvariantHoldsAtReset :=
  blockReset_inv State.reset

end Sys2Proof.Machine
